-- ==== Sys2Proof/Word.lean ====
section
/-! DEFINITION. The byte and the two kinds of register name. A register value is an unsigned integer in `[0, 2^W)`
(00_scope.md R6), a `Nat`: `W = REG_BITS` is a parameter (R4), so the bound is an invariant of the state and not part
of the type (log 1). -/

namespace Sys2Proof

/-- One byte of the instruction image: one instruction (30_encoding.md R70). -/
abbrev Byte := BitVec 8

/-- The index of a general register `x[0]`..`x[15]` (10_state.md R20). -/
abbrev Reg := Fin 16

/-- The selector of a directly-manipulated register `d[0]`, `d[1]` (10_state.md R28). -/
abbrev Dmr := Fin 2

end Sys2Proof
end

