-- ==== Sys2Proof/Config.lean ====
section
/-! DEFINITION. What is fixed for this hardware (00_scope.md R4) and the parameters a model keeps as arguments.
The spec leaves no result of an instruction undefined, so there is no free value here. -/

namespace Sys2Proof

/-- The value of `REG_BITS` for this hardware (00_scope.md R4, D1). -/
def Config.regBits : Nat := 8

/-- The value of `PC_BITS` for this hardware (00_scope.md R4, D2). -/
def Config.pcBits : Nat := 8

/-- The ISA string the spec uses (00_scope.md R1, D32). -/
def Config.isaString : String := "AZ8"

/-- The halt byte: CAL with code EXIT (30_encoding.md R77). -/
def Config.haltByte : Byte := 0xE0#8

/-- `ADD_OVERFLOW`: what ADD and INC do when the true sum does not fit (00_scope.md R4, D5). -/
inductive AddOverflow where
  | wrap
  | fault
  deriving DecidableEq, Repr

/-- The thirteen system-call names (30_encoding.md R75). -/
inductive Syscall where
  | exit | add | sub | and | or | xor | not | inc | dec | pc | ret | geti | puti
  deriving DecidableEq, Repr

/-- The names in the source's listing order (30_encoding.md R75). -/
def Syscall.all : List Syscall :=
  [.exit, .add, .sub, .and, .or, .xor, .not, .inc, .dec, .pc, .ret, .geti, .puti]

/-- `SYSCALL_MAP`: the name at each defined code 0..12 (00_scope.md R4, D4). -/
abbrev SyscallMap := Vector Syscall 13

/-- The table of 30_encoding.md R75. -/
def SyscallMap.default : SyscallMap :=
  #v[.exit, .add, .sub, .and, .or, .xor, .not, .inc, .dec, .pc, .ret, .geti, .puti]

/-- A map the source allows: codes 0 and 1 are the source's EXIT and ADD, and each name has exactly one code
(30_encoding.md R75, "ground for the code"). -/
def SyscallMap.wf (m : SyscallMap) : Bool :=
  m[0] == .exit && m[1] == .add && decide m.toList.Nodup && Syscall.all.all (fun n => m.toList.contains n)

/-- The parameters kept as arguments (00_scope.md R4; `RET_ADVANCE` of 93_implementation_defined.md section 1).
They are launch parameters: State holds them and no step changes them (log 1, log 2). -/
structure Params where
  /-- `REG_BITS`, also `W`: the width of every general register and every DMR (R4, D1). -/
  regBits : Nat
  /-- `PC_BITS`: the width of an instruction address (R4, D2). -/
  pcBits : Nat
  addOverflow : AddOverflow
  retAdvance : Bool
  syscallMap : SyscallMap
  deriving DecidableEq, Repr

/-- The values the spec gives for this hardware. -/
def Params.default : Params :=
  { regBits := Config.regBits, pcBits := Config.pcBits, addOverflow := .wrap, retAdvance := true,
    syscallMap := SyscallMap.default }

/-- `IMEM_SIZE = 2^PC_BITS`, the largest image in bytes (R4, D2). -/
def Params.imemSize (p : Params) : Nat := 2 ^ p.pcBits

/-- Parameters the spec allows: registers that hold a 4-bit immediate (00_scope.md R6, 40_manipulation.md R100) and an
instruction address (10_state.md R25), either overflow rule, either RET rule, a map the source allows (log 1). -/
def Params.wf (p : Params) : Bool :=
  decide (4 ≤ p.regBits) && decide (p.pcBits ≤ p.regBits) && p.syscallMap.wf

end Sys2Proof
end

