-- ==== Sys2Proof/Syntax.lean ====
section
/-! DEFINITION. The instructions, one constructor per row of spec/opcode_table.json. -/

namespace Sys2Proof

/-- One constructor per row of the opcode table. A branch holds its displacement as the integer the decoder hands to
it (30_encoding.md R74, R80); the three reserved rows hold the code bits their row leaves free. -/
inductive Instr where
  /-- SET, 40_manipulation.md R100. -/
  | set (s : Dmr) (imm : BitVec 4)
  /-- MOV, R101. -/
  | mov (s : Dmr) (n : Reg)
  /-- GET, R102. -/
  | get (s : Dmr) (n : Reg)
  /-- CMP, R103. -/
  | cmp (s : Dmr) (n : Reg)
  /-- JMP, 41_branch.md R131. -/
  | jmp (disp : Int)
  /-- JIE, R132. -/
  | jie (disp : Int)
  /-- JIG, R133. -/
  | jig (disp : Int)
  /-- CAL EXIT, the halt byte, 42_syscalls.md R151. -/
  | calExit
  /-- CAL ADD, R152. -/
  | calAdd
  /-- CAL SUB, R153. -/
  | calSub
  /-- CAL AND, R154. -/
  | calAnd
  /-- CAL OR, R155. -/
  | calOr
  /-- CAL XOR, R156. -/
  | calXor
  /-- CAL NOT, R157. -/
  | calNot
  /-- CAL INC, R158. -/
  | calInc
  /-- CAL DEC, R159. -/
  | calDec
  /-- CAL PC, R160. -/
  | calPc
  /-- CAL RET, R161. -/
  | calRet
  /-- CAL GETI, R162. -/
  | calGeti
  /-- CAL PUTI, R163. -/
  | calPuti
  /-- The reserved code 13, byte 0xED, R164. -/
  | calReserved13
  /-- The reserved codes 14 and 15, bytes 1110111c, R164. -/
  | calReserved14 (c : BitVec 1)
  /-- The reserved codes 16 to 31, bytes 1111cccc, R164. -/
  | calReserved16 (c : BitVec 4)
  deriving DecidableEq, Repr

/-- The instruction a system-call name stands for (42_syscalls.md R150). -/
def Syscall.toInstr : Syscall → Instr
  | .exit => .calExit
  | .add => .calAdd
  | .sub => .calSub
  | .and => .calAnd
  | .or => .calOr
  | .xor => .calXor
  | .not => .calNot
  | .inc => .calInc
  | .dec => .calDec
  | .pc => .calPc
  | .ret => .calRet
  | .geti => .calGeti
  | .puti => .calPuti

/-- The 3-bit opcode of an instruction (30_encoding.md R72). -/
def Instr.opcode : Instr → Nat
  | .set _ _ => 0
  | .mov _ _ => 1
  | .get _ _ => 2
  | .cmp _ _ => 3
  | .jmp _ => 4
  | .jie _ => 5
  | .jig _ => 6
  | .calExit => 7
  | .calAdd => 7
  | .calSub => 7
  | .calAnd => 7
  | .calOr => 7
  | .calXor => 7
  | .calNot => 7
  | .calInc => 7
  | .calDec => 7
  | .calPc => 7
  | .calRet => 7
  | .calGeti => 7
  | .calPuti => 7
  | .calReserved13 => 7
  | .calReserved14 _ => 7
  | .calReserved16 _ => 7

end Sys2Proof
end

