-- ==== Sys2Proof/WellFormed.lean ====
section
/-! DEFINITION. Which instruction terms stand for an instruction: a branch displacement lies in [-15, 15]
(30_encoding.md R74, R82). Every other field is bounded by its type. -/

namespace Sys2Proof

/-- The displacements format B can carry (30_encoding.md R74). -/
def dispInRange (d : Int) : Bool := decide (-15 ≤ d) && decide (d ≤ 15)

/-- The check of an instruction's fields. -/
def Instr.wf : Instr → Bool
  | .set _ _ => true
  | .mov _ _ => true
  | .get _ _ => true
  | .cmp _ _ => true
  | .jmp d => dispInRange d
  | .jie d => dispInRange d
  | .jig d => dispInRange d
  | .calExit => true
  | .calAdd => true
  | .calSub => true
  | .calAnd => true
  | .calOr => true
  | .calXor => true
  | .calNot => true
  | .calInc => true
  | .calDec => true
  | .calPc => true
  | .calRet => true
  | .calGeti => true
  | .calPuti => true
  | .calReserved13 => true
  | .calReserved14 _ => true
  | .calReserved16 _ => true

end Sys2Proof
end

