-- ==== Sys2Proof/Decode.lean ====
section
/-! DEFINITION. The decoder, total on every byte, and after it the encoder (30_encoding.md R70 to R82). -/

namespace Sys2Proof

/-- `op = b[7:5]` (30_encoding.md R71). -/
def opField (b : Byte) : BitVec 3 := b.extractLsb' 5 3

/-- `s = b[4]`, the DMR selector of format M (R71). -/
def selField (b : Byte) : Dmr := (b.extractLsb' 4 1).toFin

/-- `b[3:0]` as bits: SET's immediate, a branch's magnitude (R71, R73, R74). -/
def lowField (b : Byte) : BitVec 4 := b.extractLsb' 0 4

/-- `n = b[3:0]` as a register index (R73). -/
def regField (b : Byte) : Reg := (lowField b).toFin

/-- `disp(b)`, sign and magnitude: bit 4 set means backward (R74). Minus zero reads as 0 (D29). -/
def dispField (b : Byte) : Int :=
  if b.getLsbD 4 then -((lowField b).toNat : Int) else ((lowField b).toNat : Int)

/-- `code = b[4:0]`, the syscall code of format C (R71, R75). -/
def codeField (b : Byte) : BitVec 5 := b.extractLsb' 0 5

/-- Format C: codes 0..12 by `SYSCALL_MAP`, codes 13..31 reserved (R75, R76). -/
def decodeCall (m : SyscallMap) (code : BitVec 5) : Instr :=
  if h : code.toNat < 13 then (m[code.toNat]).toInstr
  else if code.toNat = 13 then .calReserved13
  else if code.toNat < 16 then .calReserved14 (code.extractLsb' 0 1)
  else .calReserved16 (code.extractLsb' 0 4)

/-- The instruction a byte stands for. The halt byte is EXIT before anything else is looked at (R77, R80), so under
every map 0xE0 halts (log 13). -/
def decodeByteWith (m : SyscallMap) (b : Byte) : Instr :=
  if b = Config.haltByte then .calExit
  else match (opField b).toNat with
    | 0 => .set (selField b) (lowField b)
    | 1 => .mov (selField b) (regField b)
    | 2 => .get (selField b) (regField b)
    | 3 => .cmp (selField b) (regField b)
    | 4 => .jmp (dispField b)
    | 5 => .jie (dispField b)
    | 6 => .jig (dispField b)
    | _ => decodeCall m (codeField b)

/-- The decoder under the spec's `SYSCALL_MAP`. -/
def decodeByte (b : Byte) : Instr := decodeByteWith SyscallMap.default b

/-- Why a byte sequence gives no instruction. No byte is unknown to the decoder (R81). -/
inductive DecodeError where
  /-- There is no byte to read. -/
  | noByte
  deriving DecidableEq, Repr

/-- Decoding from a byte sequence: always one byte an instruction (R70, R79). -/
def decodeWith (m : SyscallMap) : List Byte → Except DecodeError (Instr × List Byte)
  | [] => .error .noByte
  | b :: rest => .ok (decodeByteWith m b, rest)

/-- `decodeWith` under the spec's `SYSCALL_MAP`. -/
def decode (bytes : List Byte) : Except DecodeError (Instr × List Byte) :=
  decodeWith SyscallMap.default bytes

/-- `enc_M(op, s, n) = op*32 + s*16 + n` (R82). -/
def encM (op s n : Nat) : Byte := BitVec.ofNat 8 (op * 32 + s * 16 + n)

/-- `enc_B(op, d) = op*32 + (d < 0 ? 16 : 0) + |d|` (R82). -/
def encB (op : Nat) (d : Int) : Byte :=
  BitVec.ofNat 8 (op * 32 + (if d < 0 then 16 else 0) + d.natAbs)

/-- `enc_C(code) = 224 + code` (R82). -/
def encC (code : Nat) : Byte := BitVec.ofNat 8 (224 + code)

/-- The code of a system-call name under a map (R75). -/
def SyscallMap.codeOf (m : SyscallMap) (n : Syscall) : Nat := m.toList.idxOf n

/-- The byte of a well-formed instruction, from the encoding tables of R71, R72, R75 and R82. -/
def encodeByteWith (m : SyscallMap) : Instr → Byte
  | .set s imm => encM 0 s.val imm.toNat
  | .mov s n => encM 1 s.val n.val
  | .get s n => encM 2 s.val n.val
  | .cmp s n => encM 3 s.val n.val
  | .jmp d => encB 4 d
  | .jie d => encB 5 d
  | .jig d => encB 6 d
  | .calExit => encC (m.codeOf .exit)
  | .calAdd => encC (m.codeOf .add)
  | .calSub => encC (m.codeOf .sub)
  | .calAnd => encC (m.codeOf .and)
  | .calOr => encC (m.codeOf .or)
  | .calXor => encC (m.codeOf .xor)
  | .calNot => encC (m.codeOf .not)
  | .calInc => encC (m.codeOf .inc)
  | .calDec => encC (m.codeOf .dec)
  | .calPc => encC (m.codeOf .pc)
  | .calRet => encC (m.codeOf .ret)
  | .calGeti => encC (m.codeOf .geti)
  | .calPuti => encC (m.codeOf .puti)
  | .calReserved13 => encC 13
  | .calReserved14 c => encC (14 + c.toNat)
  | .calReserved16 c => encC (16 + c.toNat)

/-- The encoder under the spec's `SYSCALL_MAP`. -/
def encodeByte (i : Instr) : Byte := encodeByteWith SyscallMap.default i

/-- The words of an instruction: one byte (R70). -/
def encode (i : Instr) : List Byte := [encodeByte i]

/-- The byte of an opcode-table word: its low `nbits` bits, the bits above them 0, and every instruction is one
byte. -/
def tableByte (nbits w : Nat) : Byte := BitVec.ofNat 8 (w % 2 ^ nbits)

/-- What the decoder reads from a word numbered as spec/opcode_table.json numbers it. -/
def decodeTableWord (nbits w : Nat) : Option Instr :=
  match decode [tableByte nbits w] with
  | .ok (i, _) => some i
  | .error _ => none

end Sys2Proof
end

