-- ==== Sys2Proof/Machine/State.lean ====
section
/-! DEFINITION. The state of the core as plain data, its reset value, and the reasons a step can stop. -/

namespace Sys2Proof.Machine

/-- The five fault reasons of 60_exceptions.md R201. A fault is an effect the spec describes (the status becomes
`Faulted(reason)`, R200), so it is part of the state and not an outcome of a step (log 3). -/
inductive FaultReason where
  /-- Code 1, raised by the fetch (20_memory.md R52). -/
  | fetchOutOfRange
  /-- Code 2, raised by a taken branch (41_branch.md R130). -/
  | branchTargetNegative
  /-- Code 3, raised by a reserved CAL code (42_syscalls.md R164). -/
  | undefinedSyscall
  /-- Code 4, raised by GETI (42_syscalls.md R162). -/
  | inputParse
  /-- Code 5, raised by ADD and INC under `ADD_OVERFLOW = fault` (42_syscalls.md R152, R158). -/
  | arithOverflow
  deriving DecidableEq, Repr

/-- The engine status (10_state.md R32). -/
inductive Status where
  | running
  | awaitingInput
  | halted
  | faulted (reason : FaultReason)
  deriving DecidableEq, Repr

/-- The host's answer to a GETI request (60_exceptions.md R213). -/
inductive Answer where
  | value (v : Nat)
  | error
  deriving DecidableEq, Repr

/-- The host's promise for a value it answers: `0 <= v < 2^W` (60_exceptions.md R213). -/
def Answer.fits (w : Nat) : Answer → Bool
  | .value v => decide (v < 2 ^ w)
  | .error => true

/-- Everything the spec gives the machine, the launch parameters, and the host's channels. -/
structure State where
  /-- General registers, 10_state.md R20. -/
  x : Vector Nat 16
  /-- The DMR file, R28. -/
  d : Vector Nat 2
  /-- The program counter, a natural number, R29. -/
  pc : Nat
  /-- The engine status with the fault reason, R32. -/
  status : Status
  /-- The output stream of this run, oldest first, R35. -/
  out : List Nat
  /-- The GETI answers consumed in this run, oldest first, 60_exceptions.md R214. -/
  answers : List Answer
  /-- The host's answers not yet consumed, oldest first, R213 (log 6). -/
  inbox : List Answer
  /-- Values passed to the host before the last reset, never withdrawn, 70_reset_and_hazards.md R230 (log 8). -/
  pastOut : List Nat
  /-- The reset input, R215 (log 7). -/
  resetIn : Bool
  /-- The instruction image, a launch parameter, 20_memory.md R51 (log 10). -/
  image : List Host.Cell
  /-- The other launch parameters, 00_scope.md R4 (log 2). -/
  params : Params
  deriving DecidableEq, Repr

/-- Why a step is impossible. Both are raised by the step from a terminal status, never by an instruction. -/
inductive Fault where
  /-- The core is `Halted` and reset is not asserted: no step is possible (30_encoding.md R80). Raised by the step.
  Safe: the hardware takes no step either. -/
  | coreHalted
  /-- The core is `Faulted(reason)` and reset is not asserted: no step is possible (60_exceptions.md R200). Raised by
  the step. Safe: the hardware takes no step either. -/
  | coreFaulted (reason : FaultReason)
  deriving DecidableEq, Repr

/-- Why the model gives an instruction no meaning. -/
inductive Refusal where
  /-- An instruction whose meaning is not written yet; no arm of exec raises it now. Safe: the model stops. -/
  | notModelled (mnemonic : String)
  deriving DecidableEq, Repr

/-- What a step or an instruction answers. -/
abbrev Result := Host.Outcome State Fault Refusal

/-- The machine right after reset (10_state.md R38, 70_reset_and_hazards.md R230), with no image loaded. -/
def State.reset : State :=
  { x := Vector.replicate 16 0
    d := Vector.replicate 2 0
    pc := 0
    status := .running
    out := []
    answers := []
    inbox := []
    pastOut := []
    resetIn := false
    image := []
    params := Params.default }

end Sys2Proof.Machine
end

