-- ==== Sys2Proof/Machine/Ops.lean ====
section
/-! DEFINITION. The operations over the image, the registers, the program counter, the host's channels and the
status that the meanings share; among them the taking of a fault and the reset that leaves it. -/

namespace Sys2Proof.Machine

/-! ### The instruction image (20_memory.md R51, R52) -/

/-- Cells listed from address `base` on, one after another with no gap. -/
def Memory.contiguousFrom : Nat → List Host.Cell → Bool
  | _, [] => true
  | base, c :: rest => c.1 == base && Memory.contiguousFrom (base + 1) rest

/-- The canonical form of an image: exactly the addresses 0..L-1, rising, with `L <= IMEM_SIZE` (R51), `size` being
`IMEM_SIZE`. An unlisted address reads as nothing, so no entry can equal it (log 10). -/
def Memory.wf (size : Nat) (img : List Host.Cell) : Bool :=
  Memory.contiguousFrom 0 img && decide (img.length ≤ size)

/-- `L`, the length of the image (R51). -/
def Memory.size (img : List Host.Cell) : Nat := img.length

/-- `MemRead(addr, 1)`: the byte at an address, or nothing where no byte is listed (R52, R56). -/
def Memory.read : List Host.Cell → Nat → Option Byte
  | [], _ => none
  | c :: rest, a => if c.1 = a then some c.2 else Memory.read rest a

/-- The image that holds the bytes at `base`, `base + 1`, ... -/
def Memory.ofBytesFrom : Nat → List Byte → List Host.Cell
  | _, [] => []
  | base, b :: rest => (base, b) :: Memory.ofBytesFrom (base + 1) rest

/-- The image of a byte sequence: byte `i` at address `i` (R51). -/
def Memory.ofBytes (bytes : List Byte) : List Host.Cell := Memory.ofBytesFrom 0 bytes

/-- The byte at a listed address replaced. -/
def Memory.replace (img : List Host.Cell) (a : Nat) (b : Byte) : List Host.Cell :=
  img.map (fun c => if c.1 = a then (c.1, b) else c)

/-- The HOST's placing of one byte before a run (no instruction writes the image, R51): a listed address is
replaced, an address past the end extends the image with halt bytes up to it, and an address outside the
address space of `size` bytes changes nothing (log 11). -/
def Memory.place (size : Nat) (img : List Host.Cell) (a : Nat) (b : Byte) : List Host.Cell :=
  if a < img.length then Memory.replace img a b
  else if a < size then
    img ++ Memory.ofBytesFrom img.length (List.replicate (a - img.length) Config.haltByte ++ [b])
  else img

/-- `fetch(pc)` without the fault: the byte at `pc`, or nothing when `pc >= L` (R52). -/
def fetchByte (s : State) : Option Byte :=
  if s.pc < Memory.size s.image then Memory.read s.image s.pc else none

/-! ### Registers (10_state.md R20, R21, R28) -/

/-- `x[n]`. -/
def readX (s : State) (n : Reg) : Nat := s.x[n]

/-- `x[n] <- v`. R0 is read-only: a write to index 0 is discarded (R21, 40_manipulation.md R101). -/
def writeX (s : State) (n : Reg) (v : Nat) : State :=
  if n = 0 then s else { s with x := s.x.set n v }

/-- `d[i]`. -/
def readD (s : State) (i : Dmr) : Nat := s.d[i]

/-- `d[i] <- v`. -/
def writeD (s : State) (i : Dmr) (v : Nat) : State := { s with d := s.d.set i v }

/-! ### Program counter and status -/

/-- `pc <- target`. The counter never wraps (R31). -/
def setPc (s : State) (target : Nat) : State := { s with pc := target }

/-- The normal advance `pc <- pc + 1` (R30). -/
def advance (s : State) : State := setPc s (s.pc + 1)

/-- `status <- st` (R32). -/
def setStatus (s : State) (st : Status) : State := { s with status := st }

/-- `halt`: the status becomes `Halted` and nothing else changes (30_encoding.md R80, 42_syscalls.md R151). -/
def haltCore (s : State) : State := setStatus s .halted

/-- TAKING A FAULT (60_exceptions.md R200, R203): the status becomes `Faulted(reason)`, `pc` stays at the faulting
instruction, and nothing else is written. -/
def raiseFault (reason : FaultReason) (s : State) : State := setStatus s (.faulted reason)

/-- LEAVING A FAULT: there is no return instruction (R204); only reset leaves `Halted` and `Faulted` (R200, R211).
Reset puts every piece of state to its value of 10_state.md R38. The launch parameters stay (R37), output already
passed to the host is not withdrawn (70_reset_and_hazards.md R230; log 8), and a pending GETI request is gone with
the status. Answers the host has not been asked for stay in its channel (log 9); the reset input is taken (log 7). -/
def applyReset (s : State) : State :=
  { State.reset with
    image := s.image
    params := s.params
    inbox := s.inbox
    pastOut := s.pastOut ++ s.out }

/-! ### The host's channels (60_exceptions.md R213) -/

/-- `OutWrite(v)`: append to the output stream (10_state.md R35). -/
def outWrite (s : State) (v : Nat) : State := { s with out := s.out ++ [v] }

/-- The next answer moves from the host's channel to the consumed answers (R214). -/
def takeAnswer (s : State) (a : Answer) (rest : List Answer) : State :=
  { s with inbox := rest, answers := s.answers ++ [a] }

/-- A byte at `pc` and what else a fetch of it takes: the core running and reset not asserted (log 11). -/
def placeAtPc (s : State) (b : Byte) : State :=
  { s with image := Memory.place s.params.imemSize s.image s.pc b, status := .running, resetIn := false }

end Sys2Proof.Machine
end

