-- ==== Sys2Proof/Machine/Operands.lean ====
section
/-! DEFINITION. Operand forms and arithmetic results (00_scope.md R6, 30_encoding.md R73, R74). -/

namespace Sys2Proof.Machine

/-- `trunc_W(v) = v mod 2^W`, the non-negative residue (00_scope.md R6). -/
def truncW (w : Nat) (v : Int) : Nat := (v % ((2 ^ w : Nat) : Int)).toNat

/-- `zext_W` of a 4-bit immediate: the unsigned value of the field (R6, 30_encoding.md R73). -/
def zextImm (imm : BitVec 4) : Nat := imm.toNat

/-- The value JMP and PC save: the instruction's own address (10_state.md R25; log 12). -/
def pcWord (s : State) : Nat := truncW s.params.regBits (s.pc : Int)

/-- `target <- pc + disp`, an integer (41_branch.md R130). -/
def branchTarget (s : State) (disp : Int) : Int := (s.pc : Int) + disp

/-- The true sum of ADD, a mathematical integer (42_syscalls.md R152). -/
def sumDmrs (s : State) : Nat := readD s 0 + readD s 1

/-- The true sum of INC (R158). -/
def sumInc (s : State) : Nat := readD s 0 + 1

/-- The true difference of SUB, `d[0] - d[1]` (R153, D6). -/
def diffDmrs (s : State) : Int := (readD s 0 : Int) - (readD s 1 : Int)

/-- `(2^W - 1) - v`, the bitwise complement of `W` bits (R157, D7). -/
def complementW (w : Nat) (v : Nat) : Nat := (2 ^ w - 1) - v

/-- The true difference of DEC (R159). -/
def diffDec (s : State) : Int := (readD s 0 : Int) - 1

end Sys2Proof.Machine
end

