-- ==== Sys2Proof/Machine/Flags.lean ====
section
/-! DEFINITION. The comparison flags R14 and R15, the branch conditions, and the overflow test. The core has no other
flag (10_state.md R33). -/

namespace Sys2Proof.Machine

/-- R14 after CMP: 1 if the DMR is greater, unsigned (40_manipulation.md R103). -/
def greaterFlag (a r : Nat) : Nat := if r < a then 1 else 0

/-- R15 after CMP: 1 if the DMR is less, unsigned (R103). -/
def lessFlag (a r : Nat) : Nat := if a < r then 1 else 0

/-- CMP's write of both flags, from values read before the step (R103, D16). -/
def writeFlags (s : State) (a r : Nat) : State :=
  writeX (writeX s 14 (greaterFlag a r)) 15 (lessFlag a r)

/-- JIE's test: `x[14] == 0 and x[15] == 0`, on the values as they are (10_state.md R26, 41_branch.md R132). -/
def flagsEqual (s : State) : Bool := readX s 14 == 0 && readX s 15 == 0

/-- JIG's test: `x[14] == 1 and x[15] == 0` (10_state.md R26, 41_branch.md R133). -/
def flagsGreater (s : State) : Bool := readX s 14 == 1 && readX s 15 == 0

/-- `sum >= 2^W and ADD_OVERFLOW == fault` (42_syscalls.md R152, R158). -/
def overflowFaults (p : Params) (sum : Nat) : Bool :=
  decide (2 ^ p.regBits ≤ sum) && p.addOverflow == .fault

end Sys2Proof.Machine
end

