-- ==== Sys2Proof/Machine/Branch.lean ====
section
/-! DEFINITION. JMP, JIE and JIG (41_branch.md). -/

namespace Sys2Proof.Machine

/-- A taken branch from `s` to `target` (R130): a target below 0 faults and leaves `s` as it was; otherwise the
state `written`, which holds what the branch writes beside `pc`, continues at the target. A target at or above `L`
is not checked here. -/
def takeBranch (s written : State) (target : Int) : State :=
  if target < 0 then raiseFault .branchTargetNegative s else setPc written target.toNat

/-- JMP: save the JMP's own address in R13 and jump (R131). -/
def execJmp (disp : Int) (s : State) : Result :=
  .next (takeBranch s (writeX s 13 (pcWord s)) (branchTarget s disp))

/-- JIE: jump if the flags read "equal" (R132). -/
def execJie (disp : Int) (s : State) : Result :=
  .next (if flagsEqual s then takeBranch s s (branchTarget s disp) else advance s)

/-- JIG: jump if the flags read "greater" (R133). -/
def execJig (disp : Int) (s : State) : Result :=
  .next (if flagsGreater s then takeBranch s s (branchTarget s disp) else advance s)

end Sys2Proof.Machine
end

