-- ==== Sys2Proof/Machine/Manipulation.lean ====
section
/-! DEFINITION. SET, MOV, GET and CMP (40_manipulation.md). -/

namespace Sys2Proof.Machine

/-- SET: `d[s] <- zext_W(imm)` (R100). -/
def execSet (i : Dmr) (imm : BitVec 4) (s : State) : Result :=
  .next (advance (writeD s i (zextImm imm)))

/-- MOV: `x[n] <- d[s]`, discarded for `n = 0` (R101). -/
def execMov (i : Dmr) (n : Reg) (s : State) : Result :=
  .next (advance (writeX s n (readD s i)))

/-- GET: `d[s] <- x[n]` (R102). -/
def execGet (i : Dmr) (n : Reg) (s : State) : Result :=
  .next (advance (writeD s i (readX s n)))

/-- CMP: the flags from `d[s]` against `x[n]`, both read before the step (R103). -/
def execCmp (i : Dmr) (n : Reg) (s : State) : Result :=
  .next (advance (writeFlags s (readD s i) (readX s n)))

end Sys2Proof.Machine
end

