-- ==== Sys2Proof/Machine/Syscalls.lean ====
section
/-! DEFINITION. The system calls and the reserved codes (42_syscalls.md). -/

namespace Sys2Proof.Machine

/-- A result goes to R11 and the core advances (10_state.md R23, R30). -/
def storeResult (s : State) (v : Nat) : State := advance (writeX s 11 v)

/-- ADD's and INC's end: fault when the sum overflows and `ADD_OVERFLOW = fault`, else the truncated sum (R152,
R158). -/
def storeSum (s : State) (sum : Nat) : State :=
  if overflowFaults s.params sum then raiseFault .arithOverflow s
  else storeResult s (truncW s.params.regBits (sum : Int))

/-- GETI's answer acted on (R162): a value goes to R11 and the core runs on; `Error` faults. -/
def completeInput (s : State) : Answer → State
  | .value v => setStatus (storeResult s v) .running
  | .error => raiseFault .inputParse s

/-- GETI's exchange with the host (R162): with an answer in the channel it completes; with none the status is
`AwaitingInput` and nothing else changes. It is both the instruction's step and the step of a core that waits
(log 4, log 5). -/
def exchangeInput (s : State) : State :=
  match s.inbox with
  | [] => setStatus s .awaitingInput
  | a :: rest => completeInput (takeAnswer s a rest) a

/-- EXIT (R151): halt. The engine halts at the fetch check already (30_encoding.md R80). -/
def execCalExit (s : State) : Result := .next (haltCore s)

/-- ADD (R152). -/
def execCalAdd (s : State) : Result := .next (storeSum s (sumDmrs s))

/-- SUB (R153): underflow wraps. -/
def execCalSub (s : State) : Result := .next (storeResult s (truncW s.params.regBits (diffDmrs s)))

/-- AND (R154). -/
def execCalAnd (s : State) : Result := .next (storeResult s (readD s 0 &&& readD s 1))

/-- OR (R155). -/
def execCalOr (s : State) : Result := .next (storeResult s (readD s 0 ||| readD s 1))

/-- XOR (R156). -/
def execCalXor (s : State) : Result := .next (storeResult s (readD s 0 ^^^ readD s 1))

/-- NOT (R157). -/
def execCalNot (s : State) : Result := .next (storeResult s (complementW s.params.regBits (readD s 0)))

/-- INC (R158). -/
def execCalInc (s : State) : Result := .next (storeSum s (sumInc s))

/-- DEC (R159): underflow wraps. -/
def execCalDec (s : State) : Result := .next (storeResult s (truncW s.params.regBits (diffDec s)))

/-- PC (R160): `x[13] <- pc`, the CAL's own address. -/
def execCalPc (s : State) : Result := .next (advance (writeX s 13 (pcWord s)))

/-- RET (R161): `pc <- x[13]`, then the normal advance under `RET_ADVANCE` (D8; log 2). -/
def execCalRet (s : State) : Result :=
  .next (if s.params.retAdvance then advance (setPc s (readX s 13)) else setPc s (readX s 13))

/-- GETI (R162). -/
def execCalGeti (s : State) : Result := .next (exchangeInput s)

/-- PUTI (R163). -/
def execCalPuti (s : State) : Result := .next (advance (outWrite s (readX s 12)))

/-- The reserved code 13 (R164). -/
def execCalReserved13 (s : State) : Result := .next (raiseFault .undefinedSyscall s)

/-- The reserved codes 14 and 15 (R164). -/
def execCalReserved14 (_c : BitVec 1) (s : State) : Result := .next (raiseFault .undefinedSyscall s)

/-- The reserved codes 16 to 31 (R164). -/
def execCalReserved16 (_c : BitVec 4) (s : State) : Result := .next (raiseFault .undefinedSyscall s)

end Sys2Proof.Machine
end

