-- ==== Sys2Proof/Machine/Dispatch.lean ====
section
/-! DEFINITION. The dispatch of an instruction to its meaning, one arm per constructor (30_encoding.md R80). -/

namespace Sys2Proof.Machine

def exec (i : Instr) (s : State) : Host.Outcome State Fault Refusal :=
  match i with
  | .set sel imm => Sys2Proof.Machine.execSet sel imm s
  | .mov sel n => Sys2Proof.Machine.execMov sel n s
  | .get sel n => Sys2Proof.Machine.execGet sel n s
  | .cmp sel n => Sys2Proof.Machine.execCmp sel n s
  | .jmp disp => Sys2Proof.Machine.execJmp disp s
  | .jie disp => Sys2Proof.Machine.execJie disp s
  | .jig disp => Sys2Proof.Machine.execJig disp s
  | .calExit => Sys2Proof.Machine.execCalExit s
  | .calAdd => Sys2Proof.Machine.execCalAdd s
  | .calSub => Sys2Proof.Machine.execCalSub s
  | .calAnd => Sys2Proof.Machine.execCalAnd s
  | .calOr => Sys2Proof.Machine.execCalOr s
  | .calXor => Sys2Proof.Machine.execCalXor s
  | .calNot => Sys2Proof.Machine.execCalNot s
  | .calInc => Sys2Proof.Machine.execCalInc s
  | .calDec => Sys2Proof.Machine.execCalDec s
  | .calPc => Sys2Proof.Machine.execCalPc s
  | .calRet => Sys2Proof.Machine.execCalRet s
  | .calGeti => Sys2Proof.Machine.execCalGeti s
  | .calPuti => Sys2Proof.Machine.execCalPuti s
  | .calReserved13 => Sys2Proof.Machine.execCalReserved13 s
  | .calReserved14 c => Sys2Proof.Machine.execCalReserved14 c s
  | .calReserved16 c => Sys2Proof.Machine.execCalReserved16 c s

end Sys2Proof.Machine
end

