-- ==== Sys2Proof/Machine/Engine.lean ====
section
/-! DEFINITION. The fetch-decode-dispatch step of the core (30_encoding.md R80). -/

namespace Sys2Proof.Machine

/-- The step of a running core: fetch check, halt check, then dispatch (R80; the order of 60_exceptions.md R202). -/
def runFetched (s : State) : Result :=
  match fetchByte s with
  | none => .next (raiseFault .fetchOutOfRange s)
  | some b =>
    if b = Config.haltByte then .next (haltCore s)
    else exec (decodeByteWith s.params.syscallMap b) s

/-- The step by status (10_state.md R32): a waiting core can only complete its GETI, and a halted or faulted core has
no step (log 3). -/
def stepByStatus (s : State) : Result :=
  match s.status with
  | .running => runFetched s
  | .awaitingInput => .next (exchangeInput s)
  | .halted => .fault .coreHalted
  | .faulted r => .fault (.coreFaulted r)

/-- One step, with the reset input looked at first: reset may come at any time (70_reset_and_hazards.md R230;
log 7). -/
def engineStep (s : State) : Result :=
  if s.resetIn then .next (applyReset s) else stepByStatus s

end Sys2Proof.Machine
end

