-- ==== Sys2Proof/Machine/Step.lean ====
section
/-! DEFINITION. The step of the machine, and the placing of one instruction where the next step fetches it. -/

namespace Sys2Proof.Machine

/-- One step of the core (30_encoding.md R80). -/
def step (s : State) : Host.Outcome State Fault Refusal := engineStep s

/-- The state with an opcode-table word placed where the next step fetches: the byte at `pc` (log 11). -/
def State.withFetchWord (s : State) (nbits w : Nat) : State := placeAtPc s (tableByte nbits w)

end Sys2Proof.Machine
end

