-- ==== Sys2Proof/Machine/Text.lean ====
section
/-! DEFINITION. Text as the assembler and the host read it: characters, whitespace, lines, tokens, decimal digits
(30_encoding.md R85, R88; D14, D30). Text is a list of characters, so every function is structural. -/

namespace Sys2Proof.Machine

/-- A line of text. -/
abbrev Text := List Char

/-- ASCII whitespace: tab, LF, VT, FF, CR, space (D30; log 14). -/
def isSpace (c : Char) : Bool :=
  decide (9 ≤ c.toNat) && decide (c.toNat ≤ 13) || c.toNat == 32

/-- A decimal digit. -/
def isDigit (c : Char) : Bool := decide (48 ≤ c.toNat) && decide (c.toNat ≤ 57)

/-- Leading and trailing whitespace removed (R85). -/
def trimText (l : Text) : Text :=
  ((l.dropWhile isSpace).reverse.dropWhile isSpace).reverse

/-- The lines of a text, split at LF (D30). -/
def splitLines : Text → List Text
  | [] => [[]]
  | c :: cs =>
    if c = '\n' then [] :: splitLines cs
    else match splitLines cs with
      | [] => [[c]]
      | l :: ls => (c :: l) :: ls

/-- The maximal runs of non-whitespace characters, `cur` being the run read so far, last character first (R88, D30). -/
def tokensFrom (cur : Text) : Text → List Text
  | [] => if cur = [] then [] else [cur.reverse]
  | c :: cs =>
    if isSpace c then
      if cur = [] then tokensFrom [] cs else cur.reverse :: tokensFrom [] cs
    else tokensFrom (c :: cur) cs

/-- The tokens of a line. -/
def tokens (l : Text) : List Text := tokensFrom [] l

/-- The value of a non-empty string of decimal digits; leading zeros are read (42_syscalls.md R162; log 15). -/
def parseDecimal (l : Text) : Option Nat :=
  if l ≠ [] ∧ l.all isDigit = true then some (l.foldl (fun n c => n * 10 + (c.toNat - 48)) 0) else none

/-- A number in decimal digits with no sign and no leading zeros (D15). -/
def renderDecimal (n : Nat) : Text := Nat.toDigits 10 n

end Sys2Proof.Machine
end

