-- ==== Sys2Proof/Machine/Assembler.lean ====
section
/-! DEFINITION. The assembler: source text to image (30_encoding.md R85 to R94). It is the toolchain contract, not
part of the hardware. -/

namespace Sys2Proof.Machine

/-- The error kinds of R93 that assembling a text can give; the source's `IOError` is the host's file handling and
out of scope (00_scope.md R3). -/
inductive AsmErrorKind where
  | formatError
  | unknownOperationError
  | unknownOperandError
  | protectedRegisterError
  | unknownSyscallError
  | duplicateLabelError
  | displacementRangeError
  deriving DecidableEq, Repr

/-- An assembly error with the 1-based index it reports (R93, D24). -/
structure AsmError where
  kind : AsmErrorKind
  index : Nat
  deriving DecidableEq, Repr

/-- Label names with the image index each stands for (R87). -/
abbrev LabelTable := List (Text × Nat)

/-- The trimmed lines that are not empty (R85). -/
def sourceLines (src : Text) : List Text :=
  ((splitLines src).map trimText).filter (fun l => decide (l ≠ []))

/-- A line whose last character is a colon declares a label (R86). -/
def isLabelLine (l : Text) : Bool := l.getLast? == some ':'

/-- The label's name: the line without its final colon, taken as it is (R86, D28). -/
def labelName (l : Text) : Text := l.dropLast

/-- The lines that emit a byte each. -/
def instructionLines (src : Text) : List Text := (sourceLines src).filter (fun l => !isLabelLine l)

/-- The index a label stands for. -/
def LabelTable.find (t : LabelTable) (name : Text) : Option Nat := t.lookup name

/-- Pass 1 from line position `pos` on, with `seen` label lines before it (R87). A duplicate is reported by its
line's 1-based position (D22, D24). -/
def collectLabels (pos seen : Nat) (table : LabelTable) : List Text → Except AsmError LabelTable
  | [] => .ok table
  | l :: rest =>
    if isLabelLine l then
      match table.find (labelName l) with
      | some _ => .error { kind := .duplicateLabelError, index := pos + 1 }
      | none => collectLabels (pos + 1) (seen + 1) (table ++ [(labelName l, pos - seen)]) rest
    else collectLabels (pos + 1) seen table rest

/-- The opcode of a manipulation mnemonic, lower case only (R89, D23). -/
def manipulationOp (m : Text) : Option Nat :=
  if m = "set".toList then some 0
  else if m = "mov".toList then some 1
  else if m = "get".toList then some 2
  else if m = "cmp".toList then some 3
  else none

/-- The opcode of a branch mnemonic (R90). -/
def branchOp (m : Text) : Option Nat :=
  if m = "jmp".toList then some 4
  else if m = "jie".toList then some 5
  else if m = "jig".toList then some 6
  else none

/-- A DMR token, exactly `#0` or `#1` (R89, D23). -/
def dmrToken (t : Text) : Option Nat :=
  if t = "#0".toList then some 0 else if t = "#1".toList then some 1 else none

/-- A decimal literal 0..15. -/
def nibbleLiteral (t : Text) : Option Nat :=
  match parseDecimal t with
  | some n => if n < 16 then some n else none
  | none => none

/-- The third token: SET's literal as it stands, a register index after its one-character sigil (R89, D20, D21). -/
def thirdOperand (op : Nat) (t : Text) : Option Nat :=
  if op = 0 then nibbleLiteral t
  else match t with
    | [] => none
    | _ :: digits => nibbleLiteral digits

/-- A three-token line, its checks in R89's order. -/
def assembleManipulation (m r t : Text) : Except AsmErrorKind Byte :=
  match manipulationOp m with
  | none => .error .unknownOperationError
  | some op =>
    match dmrToken r with
    | none => .error .unknownOperandError
    | some sel =>
      match thirdOperand op t with
      | none => .error .unknownOperandError
      | some n => if op = 1 ∧ n = 0 then .error .protectedRegisterError else .ok (encM op sel n)

/-- A branch at instruction index `c` (R90): the label must be known and within 15 instructions (D19). -/
def assembleBranch (labels : LabelTable) (c op : Nat) (name : Text) : Except AsmErrorKind Byte :=
  match labels.find name with
  | none => .error .unknownOperandError
  | some target =>
    if dispInRange ((target : Int) - (c : Int)) then .ok (encB op ((target : Int) - (c : Int)))
    else .error .displacementRangeError

/-- A system call by number (R91, D21). -/
def assembleCall (t : Text) : Except AsmErrorKind Byte :=
  match parseDecimal t with
  | none => .error .unknownSyscallError
  | some code => if code < 13 then .ok (encC code) else .error .unknownSyscallError

/-- A two-token line (R88, R90, R91). -/
def assembleTwo (labels : LabelTable) (c : Nat) (m t : Text) : Except AsmErrorKind Byte :=
  match branchOp m with
  | some op => assembleBranch labels c op t
  | none => if m = "cal".toList then assembleCall t else .error .unknownOperationError

/-- One instruction line at index `c`, by its token count (R88). -/
def assembleLine (labels : LabelTable) (c : Nat) (l : Text) : Except AsmErrorKind Byte :=
  match tokens l with
  | [m, t] => assembleTwo labels c m t
  | [m, r, t] => assembleManipulation m r t
  | _ => .error .formatError

/-- Pass 2 from instruction index `c` on (R88); an error is reported at index `c + 1` (R93, D24). -/
def emitFrom (labels : LabelTable) (c : Nat) : List Text → Except AsmError (List Byte)
  | [] => .ok []
  | l :: rest =>
    if isLabelLine l then emitFrom labels c rest
    else match assembleLine labels c l with
      | .error k => .error { kind := k, index := c + 1 }
      | .ok b =>
        match emitFrom labels (c + 1) rest with
        | .error e => .error e
        | .ok bs => .ok (b :: bs)

/-- Assembling a text: pass 1, pass 2, and the synthetic halt byte at the end (R87, R88, R92). -/
def assembleText (src : Text) : Except AsmError (List Byte) :=
  match collectLabels 0 0 [] (sourceLines src) with
  | .error e => .error e
  | .ok labels =>
    match emitFrom labels 0 (sourceLines src) with
    | .error e => .error e
    | .ok bytes => .ok (bytes ++ [Config.haltByte])

/-- `assembleText` of a string. -/
def assemble (src : String) : Except AsmError (List Byte) := assembleText src.toList

end Sys2Proof.Machine
end

