-- ==== Sys2Proof/Machine/Disassembler.lean ====
section
/-! DEFINITION. The canonical listing of a byte (30_encoding.md R95, D33). -/

namespace Sys2Proof.Machine

/-- The name a listing gives a system call (R75). -/
def syscallName : Syscall → String
  | .exit => "EXIT"
  | .add => "ADD"
  | .sub => "SUB"
  | .and => "AND"
  | .or => "OR"
  | .xor => "XOR"
  | .not => "NOT"
  | .inc => "INC"
  | .dec => "DEC"
  | .pc => "PC"
  | .ret => "RET"
  | .geti => "GETI"
  | .puti => "PUTI"

/-- A number as a listing prints it. -/
def listNumber (n : Nat) : String := String.ofList (renderDecimal n)

/-- `<mnemonic> #s ` and the operand (R95). -/
def listManipulation (name sigil : String) (b : Byte) : String :=
  name ++ " #" ++ listNumber (selField b).val ++ " " ++ sigil ++ listNumber (lowField b).toNat

/-- `<mnemonic> .+k` or `.-k`; a set sign bit prints `.-k` even for `k = 0` (R95). -/
def listBranch (name : String) (b : Byte) : String :=
  name ++ (if b.getLsbD 4 then " .-" else " .+") ++ listNumber (lowField b).toNat

/-- `cal <code>` with the name as a comment; a reserved code has no name (R95; log 16). -/
def listCall (m : SyscallMap) (b : Byte) : String :=
  if h : (codeField b).toNat < 13 then
    "cal " ++ listNumber (codeField b).toNat ++ " ; " ++ syscallName m[(codeField b).toNat]
  else "cal " ++ listNumber (codeField b).toNat

/-- The listing of a byte (R95). -/
def disassembleWith (m : SyscallMap) (b : Byte) : String :=
  if b = Config.haltByte then "cal 0 ; EXIT"
  else match (opField b).toNat with
    | 0 => listManipulation "set" "" b
    | 1 => listManipulation "mov" "$" b
    | 2 => listManipulation "get" "$" b
    | 3 => listManipulation "cmp" "$" b
    | 4 => listBranch "jmp" b
    | 5 => listBranch "jie" b
    | 6 => listBranch "jig" b
    | _ => listCall m b

/-- The listing under the spec's `SYSCALL_MAP`. -/
def disassemble (b : Byte) : String := disassembleWith SyscallMap.default b

end Sys2Proof.Machine
end

