-- ==== Sys2Proof/Machine/Ports.lean ====
section
/-! DEFINITION. The core's ports and what the host does at them (60_exceptions.md R201, R213 to R215). -/

namespace Sys2Proof.Machine

/-- The numeric code of a fault reason (R201, D13). -/
def FaultReason.code : FaultReason → Nat
  | .fetchOutOfRange => 1
  | .branchTargetNegative => 2
  | .undefinedSyscall => 3
  | .inputParse => 4
  | .arithOverflow => 5

/-- What the status port gives for the status (R215). -/
inductive PortStatus where
  | running
  | awaitingInput
  | halted
  | faulted (code : Nat)
  deriving DecidableEq, Repr

/-- The `status` port: the status, with a fault as its code, and the current `pc` (R215). -/
def statusPort (s : State) : PortStatus × Nat :=
  (match s.status with
    | .running => .running
    | .awaitingInput => .awaitingInput
    | .halted => .halted
    | .faulted r => .faulted r.code, s.pc)

/-- The `imem` port: the byte at an address, or "out of range" as nothing (R215, 20_memory.md R52). -/
def imemPort (s : State) (a : Nat) : Option Byte :=
  if a < Memory.size s.image then Memory.read s.image a else none

/-- The `debug_read` port's view of the registers (R215). -/
structure DebugView where
  x : Vector Nat 16
  d : Vector Nat 2
  pc : Nat
  deriving DecidableEq, Repr

/-- The `debug_read` port: a read that changes nothing (R215). -/
def debugRead (s : State) : DebugView := { x := s.x, d := s.d, pc := s.pc }

/-- The observation of a run's successful end (R214). -/
structure RunObservation where
  final : DebugView
  outputs : List Nat
  answers : List Answer
  deriving DecidableEq, Repr

/-- The observation, for a run that has ended in `Halted`; nothing for any other status (R214). -/
def observation (s : State) : Option RunObservation :=
  match s.status with
  | .halted => some { final := debugRead s, outputs := s.out, answers := s.answers }
  | .running => none
  | .awaitingInput => none
  | .faulted _ => none

/-- The host loads an image and releases reset: an image above `IMEM_SIZE` is refused and no run starts (R213, D2;
log 11). `answers` is what the host will answer, oldest first (log 6). -/
def launch (p : Params) (bytes : List Byte) (answers : List Answer) : Option State :=
  if bytes.length ≤ p.imemSize then
    some { State.reset with image := Memory.ofBytes bytes, params := p, inbox := answers }
  else none

/-- The host answers a GETI request (R213). -/
def hostAnswer (s : State) (a : Answer) : State := { s with inbox := s.inbox ++ [a] }

/-- The host asserts the reset input (R213, R215). -/
def assertReset (s : State) : State := { s with resetIn := true }

end Sys2Proof.Machine
end

