-- ==== Sys2Proof/Machine/HostText.lean ====
section
/-! DEFINITION. How the host turns a line into a GETI answer and PUTI values into text (42_syscalls.md R162, R163;
D14, D15). -/

namespace Sys2Proof.Machine

/-- The host's answer to a line of input, `none` being end of file (R162, D14): the stripped line must be a
non-empty string of decimal digits whose value is below `2^W`. -/
def answerOfLine (w : Nat) : Option Text → Answer
  | none => .error
  | some line =>
    match parseDecimal (trimText line) with
    | none => .error
    | some v => if v < 2 ^ w then .value v else .error

/-- The host answers a request with a line it read. -/
def hostLine (s : State) (line : Option Text) : State := hostAnswer s (answerOfLine s.params.regBits line)

/-- The text the host shows for a sequence of PUTI values: decimal, no sign, no leading zeros, no separator (R163,
D15). -/
def renderOutput (vs : List Nat) : Text := vs.flatMap (renderDecimal)

end Sys2Proof.Machine
end

