-- ==== Sys2Proof/Safety.lean ====
section
/-! DEFINITION. What counts as a safe state and a safe run, the invariant of the machine, the table of what each
instruction may write, and the table of fault causes: the terms the statements use. -/

namespace Sys2Proof.Machine

/-- A state that no fault has reached (60_exceptions.md R212). -/
def State.notFaulted (s : State) : Bool :=
  match s.status with
  | .running => true
  | .awaitingInput => true
  | .halted => true
  | .faulted _ => false

/-- A run has ended (60_exceptions.md R214). -/
def State.ended (s : State) : Bool :=
  match s.status with
  | .running => false
  | .awaitingInput => false
  | .halted => true
  | .faulted _ => true

/-- `k` steps of the machine from `s`, as the host runs it. -/
def runFor (k : Nat) (s : State) : Result := Sys2Proof.core.run k s

/-- A run of at most `k` steps from `s` meets no faulted state. -/
def SafeFor (k : Nat) (s : State) : Prop :=
  ∀ j ≤ k, ∀ t, runFor j s = .next t → t.notFaulted = true

/-- The instruction is a branch with this displacement that is taken on the flags of `s`: a JMP, a JIE while they
read "equal", a JIG while they read "greater" (41_branch.md R131 to R133). -/
def BranchTaken (s : State) (i : Instr) (disp : Int) : Prop :=
  i = .jmp disp ∨ (i = .jie disp ∧ readX s 14 = 0 ∧ readX s 15 = 0) ∨
    (i = .jig disp ∧ readX s 14 = 1 ∧ readX s 15 = 0)

/-- The instruction at `pc`, where the image has a byte there. -/
def currentInstr (s : State) : Option Instr :=
  (fetchByte s).map (decodeByteWith s.params.syscallMap)

/-- What a status says about the instruction at `pc`: a waiting core stands at its GETI (10_state.md R36), a halted
one at the halt byte (60_exceptions.md R214), a faulted one at the instruction that faulted (R200, R201). -/
def StatusMatchesPc (s : State) : Prop :=
  match s.status with
  | .running => True
  | .awaitingInput => currentInstr s = some .calGeti
  | .halted => fetchByte s = some Config.haltByte
  | .faulted .fetchOutOfRange => fetchByte s = none
  | .faulted .branchTargetNegative =>
    ∃ disp : Int, branchTarget s disp < 0 ∧ currentInstr s ∈ [some (.jmp disp), some (.jie disp), some (.jig disp)]
  | .faulted .undefinedSyscall => ∃ b, fetchByte s = some b ∧ 0xED ≤ b.toNat
  | .faulted .inputParse => currentInstr s = some .calGeti
  | .faulted .arithOverflow =>
    s.params.addOverflow = .fault ∧ currentInstr s ∈ [some .calAdd, some .calInc]

/-- Every register value, every value put out and every value the host offers is an unsigned integer in `[0, 2^W)`
(00_scope.md R6, R7; 60_exceptions.md R213). -/
structure WordsInRange (s : State) : Prop where
  x : ∀ n : Reg, readX s n < 2 ^ s.params.regBits
  d : ∀ k : Dmr, readD s k < 2 ^ s.params.regBits
  out : ∀ v ∈ s.out, v < 2 ^ s.params.regBits
  inbox : ∀ a ∈ s.inbox, a.fits s.params.regBits = true

/-- The invariant of the machine: R0 reads 0 (10_state.md R21), every value is in range (00_scope.md R6), the image
has its canonical form (20_memory.md R51), the parameters are ones the spec allows (00_scope.md R4), `pc` is at most
15 past the largest register value (10_state.md R31 with 30_encoding.md R74 and 42_syscalls.md R161), and the status
fits the instruction at `pc`. -/
structure State.Inv (s : State) : Prop where
  rZero : readX s 0 = 0
  words : WordsInRange s
  image : Memory.wf s.params.imemSize s.image = true
  params : s.params.wf = true
  pcBound : s.pc ≤ 2 ^ s.params.regBits + 14
  status : StatusMatchesPc s

/-- The general registers an instruction may change (10_state.md R27). -/
def xWrites : Instr → List Reg
  | .set _ _ => []
  | .mov _ n => if n = 0 then [] else [n]
  | .get _ _ => []
  | .cmp _ _ => [14, 15]
  | .jmp _ => [13]
  | .jie _ => []
  | .jig _ => []
  | .calExit => []
  | .calAdd => [11]
  | .calSub => [11]
  | .calAnd => [11]
  | .calOr => [11]
  | .calXor => [11]
  | .calNot => [11]
  | .calInc => [11]
  | .calDec => [11]
  | .calPc => [13]
  | .calRet => []
  | .calGeti => [11]
  | .calPuti => []
  | .calReserved13 => []
  | .calReserved14 _ => []
  | .calReserved16 _ => []

/-- The DMRs an instruction may change (10_state.md R27). -/
def dWrites : Instr → List Dmr
  | .set sel _ => [sel]
  | .mov _ _ => []
  | .get sel _ => [sel]
  | .cmp _ _ => []
  | .jmp _ => []
  | .jie _ => []
  | .jig _ => []
  | .calExit => []
  | .calAdd => []
  | .calSub => []
  | .calAnd => []
  | .calOr => []
  | .calXor => []
  | .calNot => []
  | .calInc => []
  | .calDec => []
  | .calPc => []
  | .calRet => []
  | .calGeti => []
  | .calPuti => []
  | .calReserved13 => []
  | .calReserved14 _ => []
  | .calReserved16 _ => []

/-- The instructions that set `pc` themselves or stop the core (10_state.md R27, R30). -/
def setsPc : Instr → Bool
  | .set _ _ => false
  | .mov _ _ => false
  | .get _ _ => false
  | .cmp _ _ => false
  | .jmp _ => true
  | .jie _ => true
  | .jig _ => true
  | .calExit => true
  | .calAdd => false
  | .calSub => false
  | .calAnd => false
  | .calOr => false
  | .calXor => false
  | .calNot => false
  | .calInc => false
  | .calDec => false
  | .calPc => false
  | .calRet => true
  | .calGeti => false
  | .calPuti => false
  | .calReserved13 => true
  | .calReserved14 _ => true
  | .calReserved16 _ => true

/-- The condition of each fault for a running core about to step (60_exceptions.md R201, R202): what must hold of
the instruction at `pc` and of the state before the step. -/
def FaultCause (s : State) : FaultReason → Prop
  | .fetchOutOfRange => Memory.size s.image ≤ s.pc
  | .branchTargetNegative =>
    ∃ (disp : Int) (i : Instr), (s.pc : Int) + disp < 0 ∧ currentInstr s = some i ∧ BranchTaken s i disp
  | .undefinedSyscall => ∃ b, fetchByte s = some b ∧ 0xED ≤ b.toNat
  | .inputParse => currentInstr s = some .calGeti ∧ s.inbox.head? = some .error
  | .arithOverflow =>
    s.params.addOverflow = .fault ∧
      ((currentInstr s = some .calAdd ∧ 2 ^ s.params.regBits ≤ readD s 0 + readD s 1) ∨
        (currentInstr s = some .calInc ∧ 2 ^ s.params.regBits ≤ readD s 0 + 1))

end Sys2Proof.Machine
end

