-- ==== Sys2Proof/Certificates/Slice0/Obligations.lean ====
section
/-! DEFINITION. The statements for the provers. Nothing is proved here. -/

open Sys2Proof Sys2Proof.Machine

/-! ### Encoding -/

/-- Words written out from the tables of 30_encoding.md R71, R72, R75: one of every family. -/
def Obligations.WrittenWordsDecode : Prop :=
  decodeByte 0b00010011#8 = .set 1 3#4 ∧
  decodeByte 0b00101100#8 = .mov 0 12 ∧
  decodeByte 0b01011011#8 = .get 1 11 ∧
  decodeByte 0b01100011#8 = .cmp 0 3 ∧
  decodeByte 0b10000011#8 = .jmp 3 ∧
  decodeByte 0b10010001#8 = .jmp (-1) ∧
  decodeByte 0b10110101#8 = .jie (-5) ∧
  decodeByte 0b11011010#8 = .jig (-10) ∧
  decodeByte 0b11100000#8 = .calExit ∧
  decodeByte 0b11100001#8 = .calAdd ∧
  decodeByte 0b11101100#8 = .calPuti ∧
  decodeByte 0b11101101#8 = .calReserved13 ∧
  decodeByte 0b11111111#8 = .calReserved16 15#4

/-- Decode and encode agree (30_encoding.md R82, which marks the exception of the three minus-zero bytes as its own
inference): for every map the source allows, every well-formed instruction comes back from its byte with nothing left
over, every byte but 0x90, 0xB0 and 0xD0 comes back from its instruction, those three come back as 0x80, 0xA0 and
0xC0, every byte decodes to a well-formed instruction, and the three encoding formulas hold as numbers. -/
def Obligations.DecodeAndEncodeAgree : Prop :=
  (∀ m : SyscallMap, m.wf = true →
    (∀ i : Instr, i.wf = true → decodeWith m [encodeByteWith m i] = .ok (i, [])) ∧
    (∀ b : Byte, b ≠ 0x90#8 → b ≠ 0xB0#8 → b ≠ 0xD0#8 → encodeByteWith m (decodeByteWith m b) = b) ∧
    (decodeByteWith m 0x90#8 = .jmp 0 ∧ encodeByteWith m (.jmp 0) = 0x80#8) ∧
    (decodeByteWith m 0xB0#8 = .jie 0 ∧ encodeByteWith m (.jie 0) = 0xA0#8) ∧
    (decodeByteWith m 0xD0#8 = .jig 0 ∧ encodeByteWith m (.jig 0) = 0xC0#8) ∧
    (∀ b : Byte, (decodeByteWith m b).wf = true)) ∧
  (∀ op s n : Nat, op < 8 → s < 2 → n < 16 → (encM op s n).toNat = op * 32 + s * 16 + n) ∧
  (∀ (op : Nat) (d : Int), op < 8 → -15 ≤ d → d ≤ 15 →
    (encB op d).toNat = op * 32 + (if d < 0 then 16 else 0) + d.natAbs) ∧
  (∀ code : Nat, code < 32 → (encC code).toNat = 224 + code)

/-- Each byte decodes to the row it belongs to (30_encoding.md R71 to R77, R81): its selector, register, immediate,
displacement or code taken from the bits the formats name, under every map the source allows. -/
def Obligations.EveryByteDecodesToItsRow : Prop :=
  ∀ m : SyscallMap, m.wf = true → ∀ b : Byte,
    (b.toNat < 0x20 → decodeByteWith m b = .set (Fin.ofNat 2 (b.toNat / 16)) (BitVec.ofNat 4 b.toNat)) ∧
    (0x20 ≤ b.toNat → b.toNat < 0x40 →
      decodeByteWith m b = .mov (Fin.ofNat 2 (b.toNat / 16)) (Fin.ofNat 16 b.toNat)) ∧
    (0x40 ≤ b.toNat → b.toNat < 0x60 →
      decodeByteWith m b = .get (Fin.ofNat 2 (b.toNat / 16)) (Fin.ofNat 16 b.toNat)) ∧
    (0x60 ≤ b.toNat → b.toNat < 0x80 →
      decodeByteWith m b = .cmp (Fin.ofNat 2 (b.toNat / 16)) (Fin.ofNat 16 b.toNat)) ∧
    (0x80 ≤ b.toNat → b.toNat < 0x90 → decodeByteWith m b = .jmp ((b.toNat : Int) - 0x80)) ∧
    (0x90 ≤ b.toNat → b.toNat < 0xA0 → decodeByteWith m b = .jmp (0x90 - (b.toNat : Int))) ∧
    (0xA0 ≤ b.toNat → b.toNat < 0xB0 → decodeByteWith m b = .jie ((b.toNat : Int) - 0xA0)) ∧
    (0xB0 ≤ b.toNat → b.toNat < 0xC0 → decodeByteWith m b = .jie (0xB0 - (b.toNat : Int))) ∧
    (0xC0 ≤ b.toNat → b.toNat < 0xD0 → decodeByteWith m b = .jig ((b.toNat : Int) - 0xC0)) ∧
    (0xD0 ≤ b.toNat → b.toNat < 0xE0 → decodeByteWith m b = .jig (0xD0 - (b.toNat : Int))) ∧
    (b.toNat = 0xE0 → decodeByteWith m b = .calExit) ∧
    (0xE1 ≤ b.toNat → b.toNat < 0xED →
      ∃ n : Syscall, n ≠ .exit ∧ 0xE0 + m.codeOf n = b.toNat ∧ decodeByteWith m b = n.toInstr) ∧
    (b.toNat = 0xED → decodeByteWith m b = .calReserved13) ∧
    (0xEE ≤ b.toNat → b.toNat < 0xF0 → decodeByteWith m b = .calReserved14 (BitVec.ofNat 1 b.toNat)) ∧
    (0xF0 ≤ b.toNat → decodeByteWith m b = .calReserved16 (BitVec.ofNat 4 b.toNat))

/-- The canonical listing of every byte form (30_encoding.md R95). -/
def Obligations.ListingHasItsCanonicalForm : Prop :=
  (∀ (s : Fin 2) (n : Fin 16),
    disassemble (encM 0 s.val n.val) = "set #" ++ listNumber s.val ++ " " ++ listNumber n.val ∧
    disassemble (encM 1 s.val n.val) = "mov #" ++ listNumber s.val ++ " $" ++ listNumber n.val ∧
    disassemble (encM 2 s.val n.val) = "get #" ++ listNumber s.val ++ " $" ++ listNumber n.val ∧
    disassemble (encM 3 s.val n.val) = "cmp #" ++ listNumber s.val ++ " $" ++ listNumber n.val) ∧
  (∀ k : Fin 16,
    disassemble (BitVec.ofNat 8 (0x80 + k.val)) = "jmp .+" ++ listNumber k.val ∧
    disassemble (BitVec.ofNat 8 (0x90 + k.val)) = "jmp .-" ++ listNumber k.val ∧
    disassemble (BitVec.ofNat 8 (0xA0 + k.val)) = "jie .+" ++ listNumber k.val ∧
    disassemble (BitVec.ofNat 8 (0xB0 + k.val)) = "jie .-" ++ listNumber k.val ∧
    disassemble (BitVec.ofNat 8 (0xC0 + k.val)) = "jig .+" ++ listNumber k.val ∧
    disassemble (BitVec.ofNat 8 (0xD0 + k.val)) = "jig .-" ++ listNumber k.val) ∧
  disassemble 0xE0#8 = "cal 0 ; EXIT" ∧ disassemble 0xE1#8 = "cal 1 ; ADD" ∧
  disassemble 0xE2#8 = "cal 2 ; SUB" ∧ disassemble 0xE3#8 = "cal 3 ; AND" ∧
  disassemble 0xE4#8 = "cal 4 ; OR" ∧ disassemble 0xE5#8 = "cal 5 ; XOR" ∧
  disassemble 0xE6#8 = "cal 6 ; NOT" ∧ disassemble 0xE7#8 = "cal 7 ; INC" ∧
  disassemble 0xE8#8 = "cal 8 ; DEC" ∧ disassemble 0xE9#8 = "cal 9 ; PC" ∧
  disassemble 0xEA#8 = "cal 10 ; RET" ∧ disassemble 0xEB#8 = "cal 11 ; GETI" ∧
  disassemble 0xEC#8 = "cal 12 ; PUTI"

/-! ### The step -/

/-- A step of a running core runs the instruction its byte decodes to, which is well formed (30_encoding.md R80):
the step is exec at that state and adds nothing. The halt byte is among the bytes: there exec of EXIT is the halt. -/
def Obligations.StepRunsTheDecodedInstruction : Prop :=
  ∀ (s : State) (b : Byte) (i : Instr), s.resetIn = false → s.status = .running → fetchByte s = some b →
    decodeByteWith s.params.syscallMap b = i → i.wf = true ∧ step s = exec i s

/-- The fetch (20_memory.md R52): at or above `L` it faults, changing nothing but the status; below `L` it gives the
image's byte; an empty image is a legal launch that faults on the first fetch. -/
def Obligations.FetchFaultsOutsideTheImage : Prop :=
  (∀ s : State, s.resetIn = false → s.status = .running → Memory.size s.image ≤ s.pc →
    step s = .next { s with status := .faulted .fetchOutOfRange }) ∧
  (∀ s : State, Memory.wf s.params.imemSize s.image = true → s.pc < Memory.size s.image →
    ∃ b, fetchByte s = some b ∧ Memory.read s.image s.pc = some b) ∧
  (∀ (p : Params) (answers : List Answer), ∃ s, launch p [] answers = some s ∧ s.pc = 0 ∧
    step s = .next { s with status := .faulted .fetchOutOfRange })

/-- EXIT (42_syscalls.md R151): the halt byte at `pc` halts the core in place, by the step and by exec alike, and no
step follows unless reset is asserted. -/
def Obligations.ExitHaltsInPlace : Prop :=
  (∀ s : State, s.resetIn = false → s.status = .running → fetchByte s = some 0xE0#8 →
    step s = .next { s with status := .halted }) ∧
  (∀ s : State, exec .calExit s = .next { s with status := .halted }) ∧
  (∀ s t : State, s.resetIn = false → s.status = .halted → step s ≠ .next t) ∧
  encodeByte .calExit = 0xE0#8 ∧ decodeByte 0xE0#8 = .calExit ∧ assemble "cal 0" = .ok [0xE0#8, 0xE0#8]

/-- A placed word is what the next step runs: the model's own convention (log 11), for a canonical image and an
address inside the address space. -/
def Obligations.PlacedWordIsTheOneThatRuns : Prop :=
  ∀ (s : State) (nbits w : Nat), Memory.wf s.params.imemSize s.image = true → s.pc < s.params.imemSize →
    Memory.wf s.params.imemSize (s.withFetchWord nbits w).image = true ∧
    fetchByte (s.withFetchWord nbits w) = some (tableByte nbits w) ∧
    (s.withFetchWord nbits w).pc = s.pc ∧
    step (s.withFetchWord nbits w) =
      exec (decodeByteWith s.params.syscallMap (tableByte nbits w)) (s.withFetchWord nbits w)

/-! ### Manipulation instructions -/

/-- SET (40_manipulation.md R100): the whole next state, the encoding, the syntax. -/
def Obligations.SetLoadsTheImmediate : Prop :=
  (∀ (sel : Dmr) (imm : BitVec 4) (s : State),
    exec (.set sel imm) s = .next { s with d := s.d.set sel imm.toNat, pc := s.pc + 1 }) ∧
  (∀ (m : SyscallMap) (sel : Dmr) (imm : BitVec 4),
    encodeByteWith m (.set sel imm) = BitVec.ofNat 8 (16 * sel.val + imm.toNat) ∧
    decodeByteWith m (BitVec.ofNat 8 (16 * sel.val + imm.toNat)) = .set sel imm) ∧
  (∀ (sel : Fin 2) (n : Fin 16), assemble ("set #" ++ listNumber sel.val ++ " " ++ listNumber n.val) =
    .ok [BitVec.ofNat 8 (16 * sel.val + n.val), 0xE0#8])

/-- MOV (40_manipulation.md R101): the whole next state for a destination other than R0 and for R0, where nothing is
written and `pc` advances; the encoding; the syntax, which refuses R0. -/
def Obligations.MovCopiesTheDmr : Prop :=
  (∀ (sel : Dmr) (n : Reg) (s : State), n ≠ 0 →
    exec (.mov sel n) s = .next { s with x := s.x.set n s.d[sel], pc := s.pc + 1 }) ∧
  (∀ (sel : Dmr) (s : State), exec (.mov sel 0) s = .next { s with pc := s.pc + 1 }) ∧
  (∀ (m : SyscallMap) (sel : Dmr) (n : Reg),
    encodeByteWith m (.mov sel n) = BitVec.ofNat 8 (0x20 + 16 * sel.val + n.val) ∧
    decodeByteWith m (BitVec.ofNat 8 (0x20 + 16 * sel.val + n.val)) = .mov sel n) ∧
  (∀ (sel : Fin 2) (n : Fin 16), assemble ("mov #" ++ listNumber sel.val ++ " $" ++ listNumber n.val) =
    if n = 0 then .error { kind := .protectedRegisterError, index := 1 }
    else .ok [BitVec.ofNat 8 (0x20 + 16 * sel.val + n.val), 0xE0#8])

/-- GET (40_manipulation.md R102): the whole next state; from R0, which holds 0, it loads 0; encoding and syntax. -/
def Obligations.GetCopiesTheRegister : Prop :=
  (∀ (sel : Dmr) (n : Reg) (s : State),
    exec (.get sel n) s = .next { s with d := s.d.set sel s.x[n], pc := s.pc + 1 }) ∧
  (∀ (sel : Dmr) (s : State), readX s 0 = 0 →
    exec (.get sel 0) s = .next { s with d := s.d.set sel 0, pc := s.pc + 1 }) ∧
  (∀ (m : SyscallMap) (sel : Dmr) (n : Reg),
    encodeByteWith m (.get sel n) = BitVec.ofNat 8 (0x40 + 16 * sel.val + n.val) ∧
    decodeByteWith m (BitVec.ofNat 8 (0x40 + 16 * sel.val + n.val)) = .get sel n) ∧
  (∀ (sel : Fin 2) (n : Fin 16), assemble ("get #" ++ listNumber sel.val ++ " $" ++ listNumber n.val) =
    .ok [BitVec.ofNat 8 (0x40 + 16 * sel.val + n.val), 0xE0#8])

/-- CMP (40_manipulation.md R103): the whole next state from the values before the step, unsigned; the three outcomes
as the flags read them; with R0, which holds 0, a test of the DMR for zero; encoding and syntax. -/
def Obligations.CmpSetsBothFlags : Prop :=
  (∀ (sel : Dmr) (n : Reg) (s : State),
    exec (.cmp sel n) s = .next { s with
      x := (s.x.set 14 (if s.x[n] < s.d[sel] then 1 else 0)).set 15
        (if s.d[sel] < s.x[n] then 1 else 0),
      pc := s.pc + 1 }) ∧
  (∀ (sel : Dmr) (n : Reg) (s : State), ∃ t, exec (.cmp sel n) s = .next t ∧
    (s.x[n] < s.d[sel] → readX t 14 = 1 ∧ readX t 15 = 0) ∧
    (s.d[sel] < s.x[n] → readX t 14 = 0 ∧ readX t 15 = 1) ∧
    (s.d[sel] = s.x[n] → readX t 14 = 0 ∧ readX t 15 = 0)) ∧
  (∀ (sel : Dmr) (s t : State), readX s 0 = 0 → exec (.cmp sel 0) s = .next t →
    (readX t 14 = 1 ↔ readD s sel ≠ 0)) ∧
  (∀ (m : SyscallMap) (sel : Dmr) (n : Reg),
    encodeByteWith m (.cmp sel n) = BitVec.ofNat 8 (0x60 + 16 * sel.val + n.val) ∧
    decodeByteWith m (BitVec.ofNat 8 (0x60 + 16 * sel.val + n.val)) = .cmp sel n) ∧
  (∀ (sel : Fin 2) (n : Fin 16), assemble ("cmp #" ++ listNumber sel.val ++ " $" ++ listNumber n.val) =
    .ok [BitVec.ofNat 8 (0x60 + 16 * sel.val + n.val), 0xE0#8])

/-! ### Branches -/

/-- JMP (41_branch.md R131 with the target of R130): its own address goes to R13 and `pc` to the target; a target
below 0 faults and writes neither; encoding and syntax. An instruction's address fits R13 (10_state.md R25), so the
first clause is about those addresses; what R13 gets at a larger `pc`, where nothing can be fetched, is the model's
(log 12) and not stated. -/
def Obligations.JmpSavesItsAddressAndJumps : Prop :=
  (∀ (disp : Int) (s : State), s.pc < 2 ^ s.params.regBits → 0 ≤ (s.pc : Int) + disp →
    exec (.jmp disp) s = .next { s with x := s.x.set 13 s.pc, pc := ((s.pc : Int) + disp).toNat }) ∧
  (∀ (disp : Int) (s : State), (s.pc : Int) + disp < 0 →
    exec (.jmp disp) s = .next { s with status := .faulted .branchTargetNegative }) ∧
  (∀ (disp : Int) (s t : State), s.pc < 2 ^ s.params.regBits → 0 ≤ (s.pc : Int) + disp →
    exec (.jmp disp) s = .next t → readX t 13 = s.pc ∧ (t.pc : Int) = (s.pc : Int) + disp) ∧
  (∀ (m : SyscallMap) (k : Fin 16),
    decodeByteWith m (BitVec.ofNat 8 (0x80 + k.val)) = .jmp (k.val : Int) ∧
    decodeByteWith m (BitVec.ofNat 8 (0x90 + k.val)) = .jmp (-(k.val : Int))) ∧
  (∀ (labels : LabelTable) (c : Nat) (name : Text), assembleTwo labels c "jmp".toList name =
    assembleBranch labels c 4 name)

/-- JIE (41_branch.md R132): taken exactly when R14 and R15 are both 0; taken, it jumps or faults below 0; otherwise
it falls through; R13 and every other register stay. -/
def Obligations.JieJumpsIfEqual : Prop :=
  (∀ (disp : Int) (s : State), readX s 14 = 0 → readX s 15 = 0 → 0 ≤ (s.pc : Int) + disp →
    exec (.jie disp) s = .next { s with pc := ((s.pc : Int) + disp).toNat }) ∧
  (∀ (disp : Int) (s : State), readX s 14 = 0 → readX s 15 = 0 → (s.pc : Int) + disp < 0 →
    exec (.jie disp) s = .next { s with status := .faulted .branchTargetNegative }) ∧
  (∀ (disp : Int) (s : State), (readX s 14 ≠ 0 ∨ readX s 15 ≠ 0) →
    exec (.jie disp) s = .next { s with pc := s.pc + 1 }) ∧
  (∀ (m : SyscallMap) (k : Fin 16),
    decodeByteWith m (BitVec.ofNat 8 (0xA0 + k.val)) = .jie (k.val : Int) ∧
    decodeByteWith m (BitVec.ofNat 8 (0xB0 + k.val)) = .jie (-(k.val : Int))) ∧
  (∀ (labels : LabelTable) (c : Nat) (name : Text), assembleTwo labels c "jie".toList name =
    assembleBranch labels c 5 name)

/-- JIG (41_branch.md R133): taken exactly when R14 is 1 and R15 is 0; any other pair falls through, (1, 1) and a
MOV-written 2 among them. -/
def Obligations.JigJumpsIfGreater : Prop :=
  (∀ (disp : Int) (s : State), readX s 14 = 1 → readX s 15 = 0 → 0 ≤ (s.pc : Int) + disp →
    exec (.jig disp) s = .next { s with pc := ((s.pc : Int) + disp).toNat }) ∧
  (∀ (disp : Int) (s : State), readX s 14 = 1 → readX s 15 = 0 → (s.pc : Int) + disp < 0 →
    exec (.jig disp) s = .next { s with status := .faulted .branchTargetNegative }) ∧
  (∀ (disp : Int) (s : State), (readX s 14 ≠ 1 ∨ readX s 15 ≠ 0) →
    exec (.jig disp) s = .next { s with pc := s.pc + 1 }) ∧
  (∀ (m : SyscallMap) (k : Fin 16),
    decodeByteWith m (BitVec.ofNat 8 (0xC0 + k.val)) = .jig (k.val : Int) ∧
    decodeByteWith m (BitVec.ofNat 8 (0xD0 + k.val)) = .jig (-(k.val : Int))) ∧
  (∀ (labels : LabelTable) (c : Nat) (name : Text), assembleTwo labels c "jig".toList name =
    assembleBranch labels c 6 name)

/-- A call returns (41_branch.md R135, an inference the spec marks as its own): after a JMP or a PC, a RET in any
later state that still holds the saved R13 continues at the address after that JMP or PC. -/
def Obligations.ReturnResumesAfterTheCall : Prop :=
  ∀ (s t u : State) (disp : Int), s.pc < 2 ^ s.params.regBits → 0 ≤ (s.pc : Int) + disp →
    (exec (.jmp disp) s = .next t ∨ exec .calPc s = .next t) →
    readX u 13 = readX t 13 → u.params.retAdvance = true →
    exec .calRet u = .next { u with pc := s.pc + 1 }

/-! ### System calls -/

/-- ADD (42_syscalls.md R152): the sum modulo `2^W` goes to R11 under `wrap`, and under either rule when it fits;
under `fault` a sum of `2^W` or more faults and writes nothing. -/
def Obligations.AddStoresTheSum : Prop :=
  (∀ s : State, (s.params.addOverflow = .wrap ∨ readD s 0 + readD s 1 < 2 ^ s.params.regBits) →
    exec .calAdd s = .next { s with
      x := s.x.set 11 ((readD s 0 + readD s 1) % 2 ^ s.params.regBits), pc := s.pc + 1 }) ∧
  (∀ s : State, s.params.addOverflow = .fault → 2 ^ s.params.regBits ≤ readD s 0 + readD s 1 →
    exec .calAdd s = .next { s with status := .faulted .arithOverflow }) ∧
  encodeByte .calAdd = 0xE1#8 ∧ decodeByte 0xE1#8 = .calAdd ∧ assemble "cal 1" = .ok [0xE1#8, 0xE0#8]

/-- SUB (42_syscalls.md R153): `d[0] - d[1]` modulo `2^W` goes to R11, underflow wrapping. -/
def Obligations.SubStoresTheDifference : Prop :=
  (∀ s : State, ∃ v : Nat,
    (v : Int) = ((readD s 0 : Int) - (readD s 1 : Int)) % ((2 ^ s.params.regBits : Nat) : Int) ∧
    exec .calSub s = .next { s with x := s.x.set 11 v, pc := s.pc + 1 }) ∧
  encodeByte .calSub = 0xE2#8 ∧ decodeByte 0xE2#8 = .calSub ∧ assemble "cal 2" = .ok [0xE2#8, 0xE0#8]

/-- AND, OR and XOR (42_syscalls.md R154, R155, R156): each bit of the result in R11 is that operation on the two
DMRs' bits. -/
def Obligations.BitwiseCallsActOnEachBit : Prop :=
  (∀ s : State, ∃ v : Nat, (∀ k, v.testBit k = ((readD s 0).testBit k && (readD s 1).testBit k)) ∧
    exec .calAnd s = .next { s with x := s.x.set 11 v, pc := s.pc + 1 }) ∧
  (∀ s : State, ∃ v : Nat, (∀ k, v.testBit k = ((readD s 0).testBit k || (readD s 1).testBit k)) ∧
    exec .calOr s = .next { s with x := s.x.set 11 v, pc := s.pc + 1 }) ∧
  (∀ s : State, ∃ v : Nat, (∀ k, v.testBit k = ((readD s 0).testBit k ^^ (readD s 1).testBit k)) ∧
    exec .calXor s = .next { s with x := s.x.set 11 v, pc := s.pc + 1 }) ∧
  encodeByte .calAnd = 0xE3#8 ∧ decodeByte 0xE3#8 = .calAnd ∧ assemble "cal 3" = .ok [0xE3#8, 0xE0#8] ∧
  encodeByte .calOr = 0xE4#8 ∧ decodeByte 0xE4#8 = .calOr ∧ assemble "cal 4" = .ok [0xE4#8, 0xE0#8] ∧
  encodeByte .calXor = 0xE5#8 ∧ decodeByte 0xE5#8 = .calXor ∧ assemble "cal 5" = .ok [0xE5#8, 0xE0#8]

/-- NOT (42_syscalls.md R157): `(2^W - 1) - d[0]` goes to R11; of a register value, every one of the `W` bits
complemented; `d[1]` is not read. -/
def Obligations.NotStoresTheComplement : Prop :=
  (∀ s : State, ∃ v : Nat, v = (2 ^ s.params.regBits - 1) - readD s 0 ∧
    (readD s 0 < 2 ^ s.params.regBits → ∀ k, k < s.params.regBits → v.testBit k = !(readD s 0).testBit k) ∧
    exec .calNot s = .next { s with x := s.x.set 11 v, pc := s.pc + 1 }) ∧
  encodeByte .calNot = 0xE6#8 ∧ decodeByte 0xE6#8 = .calNot ∧ assemble "cal 6" = .ok [0xE6#8, 0xE0#8]

/-- INC (42_syscalls.md R158): `d[0] + 1` modulo `2^W` goes to R11 under `wrap`, and under either rule when it fits;
under `fault` INC of `2^W - 1` faults and writes nothing. -/
def Obligations.IncStoresTheSuccessor : Prop :=
  (∀ s : State, (s.params.addOverflow = .wrap ∨ readD s 0 + 1 < 2 ^ s.params.regBits) →
    exec .calInc s = .next { s with
      x := s.x.set 11 ((readD s 0 + 1) % 2 ^ s.params.regBits), pc := s.pc + 1 }) ∧
  (∀ s : State, s.params.addOverflow = .fault → 2 ^ s.params.regBits ≤ readD s 0 + 1 →
    exec .calInc s = .next { s with status := .faulted .arithOverflow }) ∧
  encodeByte .calInc = 0xE7#8 ∧ decodeByte 0xE7#8 = .calInc ∧ assemble "cal 7" = .ok [0xE7#8, 0xE0#8]

/-- DEC (42_syscalls.md R159): `d[0] - 1` modulo `2^W` goes to R11: of 0 that is `2^W - 1`, of any other register
value the predecessor. -/
def Obligations.DecStoresThePredecessor : Prop :=
  (∀ s : State, ∃ v : Nat, (v : Int) = ((readD s 0 : Int) - 1) % ((2 ^ s.params.regBits : Nat) : Int) ∧
    (readD s 0 = 0 → v = 2 ^ s.params.regBits - 1) ∧
    (0 < readD s 0 → readD s 0 < 2 ^ s.params.regBits → v = readD s 0 - 1) ∧
    exec .calDec s = .next { s with x := s.x.set 11 v, pc := s.pc + 1 }) ∧
  encodeByte .calDec = 0xE8#8 ∧ decodeByte 0xE8#8 = .calDec ∧ assemble "cal 8" = .ok [0xE8#8, 0xE0#8]

/-- PC (42_syscalls.md R160): the CAL's own address goes to R13, where it fits exactly (10_state.md R25); what R13
gets at a larger `pc`, where nothing can be fetched, is the model's (log 12) and not stated. -/
def Obligations.PcSavesItsOwnAddress : Prop :=
  (∀ s : State, s.pc < 2 ^ s.params.regBits →
    exec .calPc s = .next { s with x := s.x.set 13 s.pc, pc := s.pc + 1 }) ∧
  (∀ s t : State, s.pc < 2 ^ s.params.regBits → exec .calPc s = .next t → readX t 13 = s.pc) ∧
  encodeByte .calPc = 0xE9#8 ∧ decodeByte 0xE9#8 = .calPc ∧ assemble "cal 9" = .ok [0xE9#8, 0xE0#8]

/-- RET (42_syscalls.md R161): `pc` becomes `x[13] + 1` and nothing else changes. -/
def Obligations.RetContinuesAfterRThirteen : Prop :=
  (∀ s : State, s.params.retAdvance = true →
    exec .calRet s = .next { s with pc := readX s 13 + 1 }) ∧
  encodeByte .calRet = 0xEA#8 ∧ decodeByte 0xEA#8 = .calRet ∧ assemble "cal 10" = .ok [0xEA#8, 0xE0#8]

/-- RET under the alternative `RET_ADVANCE = false` that 93_implementation_defined.md lets a model expose (the model
holds that flag in its parameters: log 2): `pc` becomes `x[13]`. -/
def Obligations.RetWithoutAdvanceContinuesAtRThirteen : Prop :=
  ∀ s : State, s.params.retAdvance = false → exec .calRet s = .next { s with pc := readX s 13 }

/-- GETI (42_syscalls.md R162): with the host's value it goes to R11 and the core runs on past the GETI; with `Error`
the core faults and no register and no `pc` changes; with no answer the core waits at the GETI with nothing changed,
for as long as none comes. The same holds of the step of a core that waits. The last clauses say which lines the host
answers with a value, for registers of any width. The model's own choices in it: one step when an answer is already
there and the wait otherwise (log 4), a wait that is a step to the same state (log 5), answers that stand in a list
(log 6). -/
def Obligations.GetiTakesTheHostsAnswer : Prop :=
  (∀ (s : State) (v : Nat) (rest : List Answer), s.inbox = .value v :: rest →
    ∃ t, exec .calGeti s = .next t ∧ t.x = s.x.set 11 v ∧ t.d = s.d ∧ t.pc = s.pc + 1 ∧ t.status = .running ∧
      t.out = s.out) ∧
  (∀ (s : State) (rest : List Answer), s.inbox = .error :: rest →
    ∃ t, exec .calGeti s = .next t ∧ t.x = s.x ∧ t.d = s.d ∧ t.pc = s.pc ∧ t.status = .faulted .inputParse ∧
      t.out = s.out) ∧
  (∀ s : State, s.inbox = [] → exec .calGeti s = .next { s with status := .awaitingInput }) ∧
  (∀ s : State, s.resetIn = false → s.status = .awaitingInput → step s = exec .calGeti s) ∧
  (∀ s : State, s.resetIn = false → s.status = .awaitingInput → s.inbox = [] → step s = .next s) ∧
  encodeByte .calGeti = 0xEB#8 ∧ decodeByte 0xEB#8 = .calGeti ∧ assemble "cal 11" = .ok [0xEB#8, 0xE0#8] ∧
  (∀ w : Nat, answerOfLine w none = .error) ∧
  (∀ (w : Nat) (line : Text), (trimText line = [] ∨ ∃ c ∈ trimText line, isDigit c = false) →
    answerOfLine w (some line) = .error) ∧
  (∀ (w : Nat) (v : Nat), v < 2 ^ w →
    answerOfLine w (some (' ' :: '0' :: renderDecimal v ++ ['\n'])) = .value v) ∧
  (∀ (w : Nat) (line : Text) (n : Nat), parseDecimal (trimText line) = some n →
    answerOfLine w (some line) = if n < 2 ^ w then .value n else .error)

/-- The answer a GETI takes leaves the host's channel and is recorded as consumed, a value and an `Error` alike: the
model's reading of the observation of 60_exceptions.md R214 (log 6). -/
def Obligations.GetiConsumesOneAnswer : Prop :=
  ∀ (s : State) (a : Answer) (rest : List Answer), s.inbox = a :: rest →
    ∃ t, exec .calGeti s = .next t ∧ t.inbox = rest ∧ t.answers = s.answers ++ [a]

/-- PUTI (42_syscalls.md R163): the value of R12 is appended to the output stream and nothing else but `pc` changes;
the host's text runs values together. -/
def Obligations.PutiAppendsRTwelve : Prop :=
  (∀ s : State, exec .calPuti s = .next { s with out := s.out ++ [readX s 12], pc := s.pc + 1 }) ∧
  renderOutput [1, 2] = "12".toList ∧ renderOutput [12] = "12".toList ∧
  (∀ v : Nat, renderOutput [v] = (toString v).toList) ∧
  (∀ vs ws : List Nat, renderOutput (vs ++ ws) = renderOutput vs ++ renderOutput ws) ∧
  encodeByte .calPuti = 0xEC#8 ∧ decodeByte 0xEC#8 = .calPuti ∧ assemble "cal 12" = .ok [0xEC#8, 0xE0#8]

/-- Codes 13 to 31 (42_syscalls.md R164): the step from such a byte, and exec of each of the three rows, fault with
nothing written and `pc` at the byte. -/
def Obligations.ReservedCodesFault : Prop :=
  (∀ (s : State) (b : Byte), s.resetIn = false → s.status = .running → fetchByte s = some b → 0xED ≤ b.toNat →
    step s = .next { s with status := .faulted .undefinedSyscall }) ∧
  (∀ s : State, exec .calReserved13 s = .next { s with status := .faulted .undefinedSyscall }) ∧
  (∀ (c : BitVec 1) (s : State), exec (.calReserved14 c) s = .next { s with status := .faulted .undefinedSyscall }) ∧
  (∀ (c : BitVec 4) (s : State), exec (.calReserved16 c) s = .next { s with status := .faulted .undefinedSyscall })

/-! ### Frames -/

/-- The frame of SET, MOV, GET and CMP: every general register but MOV's destination and CMP's R14 and R15, every DMR
but the destination of SET and GET, the status, the output stream, the host's channels, the parameters, and every
byte of the image. -/
def Obligations.ManipulationFrame : Prop :=
  ∀ (i : Instr) (sel : Dmr) (n : Reg) (imm : BitVec 4) (s t : State),
    (i = .set sel imm ∨ i = .mov sel n ∨ i = .get sel n ∨ i = .cmp sel n) → exec i s = .next t →
    (∀ k : Reg, (i = .mov sel n → k ≠ n) → (i = .cmp sel n → k ≠ 14 ∧ k ≠ 15) → readX t k = readX s k) ∧
    (∀ k : Dmr, (i = .set sel imm ∨ i = .get sel n → k ≠ sel) → readD t k = readD s k) ∧
    t.status = s.status ∧ t.out = s.out ∧ t.answers = s.answers ∧ t.inbox = s.inbox ∧ t.pastOut = s.pastOut ∧
    t.resetIn = s.resetIn ∧ t.params = s.params ∧ Memory.size t.image = Memory.size s.image ∧
    (∀ a : Nat, Memory.read t.image a = Memory.read s.image a)

/-- The frame of JMP, JIE and JIG: every general register but JMP's R13, both DMRs, the output stream, the host's
channels, the parameters, every byte of the image; and the status unless the branch faulted. -/
def Obligations.BranchFrame : Prop :=
  ∀ (i : Instr) (disp : Int) (s t : State),
    (i = .jmp disp ∨ i = .jie disp ∨ i = .jig disp) → exec i s = .next t →
    (∀ k : Reg, (i = .jmp disp → k ≠ 13) → readX t k = readX s k) ∧
    (∀ k : Dmr, readD t k = readD s k) ∧
    (t.status = s.status ∨ (t.status = .faulted .branchTargetNegative ∧ t.x = s.x ∧ t.pc = s.pc)) ∧
    t.out = s.out ∧ t.answers = s.answers ∧ t.inbox = s.inbox ∧ t.pastOut = s.pastOut ∧
    t.resetIn = s.resetIn ∧ t.params = s.params ∧ Memory.size t.image = Memory.size s.image ∧
    (∀ a : Nat, Memory.read t.image a = Memory.read s.image a)

/-- The frame of ADD, SUB, AND, OR, XOR, NOT, INC and DEC: every general register but R11, both DMRs, the output
stream, the host's channels, the parameters, every byte of the image; and the status unless ADD or INC faulted. -/
def Obligations.ArithmeticFrame : Prop :=
  ∀ (i : Instr) (s t : State),
    i ∈ [.calAdd, .calSub, .calAnd, .calOr, .calXor, .calNot, .calInc, .calDec] → exec i s = .next t →
    (∀ k : Reg, k ≠ 11 → readX t k = readX s k) ∧
    (∀ k : Dmr, readD t k = readD s k) ∧
    (t.status = s.status ∨
      (i ∈ [.calAdd, .calInc] ∧ t.status = .faulted .arithOverflow ∧ t.x = s.x ∧ t.pc = s.pc)) ∧
    t.out = s.out ∧ t.answers = s.answers ∧ t.inbox = s.inbox ∧ t.pastOut = s.pastOut ∧
    t.resetIn = s.resetIn ∧ t.params = s.params ∧ Memory.size t.image = Memory.size s.image ∧
    (∀ a : Nat, Memory.read t.image a = Memory.read s.image a)

/-- The frame of EXIT, PC, RET and the reserved codes: every general register but PC's R13, both DMRs, the output
stream, the host's channels, the parameters, every byte of the image; the status stays for PC and RET, and `pc` for
EXIT and the reserved codes. -/
def Obligations.ControlCallFrame : Prop :=
  ∀ (i : Instr) (c1 : BitVec 1) (c4 : BitVec 4) (s t : State),
    i ∈ [.calExit, .calPc, .calRet, .calReserved13, .calReserved14 c1, .calReserved16 c4] → exec i s = .next t →
    (∀ k : Reg, (i = .calPc → k ≠ 13) → readX t k = readX s k) ∧
    (∀ k : Dmr, readD t k = readD s k) ∧
    (i = .calPc ∨ i = .calRet → t.status = s.status) ∧ (i ≠ .calPc → i ≠ .calRet → t.pc = s.pc) ∧
    t.out = s.out ∧ t.answers = s.answers ∧ t.inbox = s.inbox ∧ t.pastOut = s.pastOut ∧
    t.resetIn = s.resetIn ∧ t.params = s.params ∧ Memory.size t.image = Memory.size s.image ∧
    (∀ a : Nat, Memory.read t.image a = Memory.read s.image a)

/-- The frame of GETI and PUTI: every general register but GETI's R11, both DMRs, GETI leaves the output stream and
PUTI the status and the host's answers, and both leave the parameters and every byte of the image. -/
def Obligations.InputOutputFrame : Prop :=
  ∀ (i : Instr) (s t : State), (i = .calGeti ∨ i = .calPuti) → exec i s = .next t →
    (∀ k : Reg, (i = .calGeti → k ≠ 11) → readX t k = readX s k) ∧
    (∀ k : Dmr, readD t k = readD s k) ∧
    (i = .calGeti → t.out = s.out) ∧
    (i = .calPuti → t.status = s.status ∧ t.inbox = s.inbox ∧ t.answers = s.answers) ∧
    t.pastOut = s.pastOut ∧ t.resetIn = s.resetIn ∧ t.params = s.params ∧
    Memory.size t.image = Memory.size s.image ∧
    (∀ a : Nat, Memory.read t.image a = Memory.read s.image a)

/-! ### Whole-machine rules -/

/-- The write table (10_state.md R27, which the spec marks as its own inference): no instruction changes a general
register or a DMR outside its row, and an instruction that does not set `pc` advances it by one unless it faulted or
waits, when `pc` stays. -/
def Obligations.RegistersChangeOnlyAsTheWriteTableLists : Prop :=
  ∀ (i : Instr) (s t : State), exec i s = .next t →
    (∀ n : Reg, n ∉ xWrites i → readX t n = readX s n) ∧
    (∀ k : Dmr, k ∉ dWrites i → readD t k = readD s k) ∧
    (setsPc i = false → t.pc = s.pc + 1 ∨
      (t.pc = s.pc ∧ (t.status = .awaitingInput ∨ ∃ r, t.status = .faulted r)))

/-- R0 stays 0 (10_state.md R21, an inference the spec marks as its own): no step from a state where R0 reads 0 leaves
one where it does not, and no instruction changes it in any state. -/
def Obligations.RZeroNeverChanges : Prop :=
  (∀ s t : State, readX s 0 = 0 → step s = .next t → readX t 0 = 0) ∧
  (∀ (i : Instr) (s t : State), exec i s = .next t → readX t 0 = readX s 0)

/-- No step changes the image or its length (10_state.md R37). -/
def Obligations.NoStepChangesTheImage : Prop :=
  ∀ s t : State, step s = .next t → t.image = s.image ∧ Memory.size t.image = Memory.size s.image

/-- A step that faults writes nothing (60_exceptions.md R200): registers, DMRs, `pc` and the output stream are as
before; no step leaves a faulted state but reset, which makes it run again. -/
def Obligations.FaultingStepWritesNothing : Prop :=
  (∀ (s t : State) (r : FaultReason), step s = .next t → t.status = .faulted r →
    t.x = s.x ∧ t.d = s.d ∧ t.pc = s.pc ∧ t.out = s.out ∧ t.image = s.image) ∧
  (∀ (s t : State) (r : FaultReason), s.status = .faulted r → s.resetIn = false → step s ≠ .next t) ∧
  (∀ (s : State) (r : FaultReason), s.status = .faulted r → s.resetIn = true →
    ∃ t, step s = .next t ∧ t.status = .running)

/-- The fault causes (60_exceptions.md R201): a running core's step ends in a fault exactly under that fault's
condition, a waiting core's exactly when the host answers `Error`, and the codes are 1 to 5. That a running core whose
`Error` is already there faults in the step that fetches the GETI, and does not wait first, is the model's choice
(log 4), and that answers stand in a list its reading of R213 (log 6). -/
def Obligations.FaultsHappenExactlyForTheirCauses : Prop :=
  (∀ (s t : State) (r : FaultReason), Memory.wf s.params.imemSize s.image = true → s.resetIn = false → s.status = .running →
    step s = .next t → (t.status = .faulted r ↔ FaultCause s r)) ∧
  (∀ (s t : State) (r : FaultReason), s.resetIn = false → s.status = .awaitingInput → step s = .next t →
    (t.status = .faulted r ↔ r = .inputParse ∧ s.inbox.head? = some .error)) ∧
  FaultReason.code .fetchOutOfRange = 1 ∧ FaultReason.code .branchTargetNegative = 2 ∧
  FaultReason.code .undefinedSyscall = 3 ∧ FaultReason.code .inputParse = 4 ∧
  FaultReason.code .arithOverflow = 5

/-- `Halted` and `Faulted` are terminal (10_state.md R32, 60_exceptions.md R211): no step without reset, and with
reset a step to `Running`; and the only instruction that halts is EXIT. -/
def Obligations.TerminalStatusesAreLeftOnlyByReset : Prop :=
  (∀ s t : State, s.ended = true → s.resetIn = false → step s ≠ .next t) ∧
  (∀ s : State, s.ended = true → s.resetIn = true → ∃ t, step s = .next t ∧ t.status = .running) ∧
  (∀ (i : Instr) (s t : State), s.status = .running → exec i s = .next t →
    (t.status = .halted ↔ i = .calExit))

/-- The output stream grows only by PUTI, by one value (10_state.md R35). -/
def Obligations.OnlyPutiWritesTheOutput : Prop :=
  ∀ (i : Instr) (s t : State), exec i s = .next t →
    (i = .calPuti → t.out = s.out ++ [readX s 12]) ∧ (i ≠ .calPuti → t.out = s.out)

/-- The hangs of 70_reset_and_hazards.md R236 are infinite runs: a taken branch with displacement 0 (JMP; JIE and JIG
while their flags hold) runs for ever at its own address; a core on a cycle of taken branches never leaves it; a GETI
with no answer waits for ever. `cycle` is any set of addresses each of which holds a branch, taken on the flags of the
start, to an address of the set. That each step of a wait answers the same state is the model's choice (log 5). -/
def Obligations.HangsRunForEver : Prop :=
  (∀ (s : State) (k : Nat), s.resetIn = false → s.status = .running →
    (fetchByte s = some 0x80#8 ∨ fetchByte s = some 0x90#8 ∨
      ((fetchByte s = some 0xA0#8 ∨ fetchByte s = some 0xB0#8) ∧ readX s 14 = 0 ∧ readX s 15 = 0) ∨
      ((fetchByte s = some 0xC0#8 ∨ fetchByte s = some 0xD0#8) ∧ readX s 14 = 1 ∧ readX s 15 = 0)) →
    ∃ t, runFor k s = .next t ∧ t.pc = s.pc ∧ t.status = .running ∧ t.d = s.d ∧ t.out = s.out) ∧
  (∀ (s : State) (cycle : List Nat) (k : Nat), s.resetIn = false → s.status = .running → s.pc ∈ cycle →
    (∀ a ∈ cycle, ∃ (b : Byte) (disp : Int), imemPort s a = some b ∧
      BranchTaken s (decodeByteWith s.params.syscallMap b) disp ∧ ∃ a' ∈ cycle, (a : Int) + disp = (a' : Int)) →
    ∃ t, runFor k s = .next t ∧ t.pc ∈ cycle ∧ t.status = .running ∧ t.d = s.d ∧ t.out = s.out) ∧
  (∀ (s : State) (k : Nat), s.resetIn = false → s.status = .awaitingInput → s.inbox = [] →
    runFor k s = .next s)

/-! ### Reset, launch and the invariant -/

/-- The state after reset (10_state.md R38). -/
def Obligations.ResetStateIsAsTheSpecLists : Prop :=
  (∀ n : Reg, readX State.reset n = 0) ∧ (∀ k : Dmr, readD State.reset k = 0) ∧
  State.reset.pc = 0 ∧ State.reset.status = .running ∧ State.reset.out = []

/-- The parameters have the spec's values for this hardware in the reset state (00_scope.md R4): 16 general registers
and 2 DMRs of 8 bits, 256 addresses, the wrapping sum, the spec's syscall table; and every one of them but the two
counts may have another value (log 1, log 2). -/
def Obligations.ParametersHaveTheSpecsValues : Prop :=
  State.reset.x.toList.length = 16 ∧ State.reset.d.toList.length = 2 ∧ State.reset.params.regBits = 8 ∧
  State.reset.params.pcBits = 8 ∧ State.reset.params.imemSize = 256 ∧ State.reset.params.addOverflow = .wrap ∧
  State.reset.params.retAdvance = true ∧ State.reset.params.syscallMap = SyscallMap.default ∧
  State.reset.params.wf = true ∧
  Params.wf { State.reset.params with regBits := 16, pcBits := 12, addOverflow := .fault } = true

/-- Reset at any time (70_reset_and_hazards.md R230): from every state, whatever its status, a step with the reset
input asserted gives the values of 10_state.md R38, keeps the image and the parameters, and withdraws no output. That
reset comes before the step's own work and is taken by one step is the model's choice (log 7), as is where the old
output is kept (log 8) and that unread answers stay (log 9). -/
def Obligations.ResetRestoresTheResetValues : Prop :=
  ∀ s : State, s.resetIn = true → ∃ t, step s = .next t ∧
    (∀ n : Reg, readX t n = 0) ∧ (∀ k : Dmr, readD t k = 0) ∧ t.pc = 0 ∧ t.status = .running ∧ t.out = [] ∧
    t.image = s.image ∧ t.params = s.params ∧ t.pastOut = s.pastOut ++ s.out ∧ t.inbox = s.inbox ∧
    t.answers = [] ∧ t.resetIn = false

/-- The invariant holds in the reset state. -/
def Obligations.InvariantHoldsAtReset : Prop := State.reset.Inv

/-- Launch (60_exceptions.md R213, D2; the form of a launch is the model's, log 11, and so are the answers it starts
with, log 6): an image above `IMEM_SIZE` is refused; any other gives the state of 10_state.md R38, with every general
register and both DMRs 0, `pc` 0, status Running and no output, that fetches the image's byte at every address and
holds the parameters and the host's answers it was given; the invariant holds there when the parameters are ones the
spec allows and the host keeps its promise of R213 about the values it answers. -/
def Obligations.LaunchLoadsTheImage : Prop :=
  (∀ (p : Params) (bytes : List Byte) (answers : List Answer), p.imemSize < bytes.length →
    launch p bytes answers = none) ∧
  (∀ (p : Params) (bytes : List Byte) (answers : List Answer), bytes.length ≤ p.imemSize →
    ∃ s, launch p bytes answers = some s ∧
      (p.wf = true → (∀ a ∈ answers, a.fits p.regBits = true) → s.Inv) ∧
      (∀ n : Reg, readX s n = 0) ∧ (∀ k : Dmr, readD s k = 0) ∧ s.pc = 0 ∧ s.status = .running ∧ s.out = [] ∧
      s.answers = [] ∧ s.pastOut = [] ∧ s.resetIn = false ∧ s.inbox = answers ∧ s.params = p ∧
      Memory.size s.image = bytes.length ∧ (∀ a : Nat, imemPort s a = bytes[a]?)) ∧
  Params.default.imemSize = 256

/-- Every step keeps the invariant: R0 reads 0, every value is below `2^W`, the image and the parameters keep their
form, `pc` stays at most 15 past the largest register value, and the status fits the instruction at `pc`. -/
def Obligations.InvariantIsKeptByEveryStep : Prop :=
  ∀ s t : State, s.Inv → step s = .next t → t.Inv

/-- Every register value is an unsigned integer in `[0, 2^W)` (00_scope.md R6): no step takes a register, a DMR, a value
of the output or an unread answer of the host out of that range, for registers that hold a 4-bit immediate. The host's
promise about its answers (60_exceptions.md R213) is part of the premise, and that they stand in a list is the model's
(log 6). -/
def Obligations.StepsKeepEveryValueInRange : Prop :=
  ∀ s t : State, 4 ≤ s.params.regBits → WordsInRange s → step s = .next t →
    WordsInRange t ∧ t.params.regBits = s.params.regBits

/-- From any launched image, with any answers the host may give (60_exceptions.md R213), parameters the spec allows and
any number of steps, the invariant holds, and the image and parameters are those launched. The form of a launch is the
model's (log 11), and so is the list of answers it starts with (log 6). -/
def Obligations.EveryReachedStateMeetsTheInvariant : Prop :=
  ∀ (p : Params) (bytes : List Byte) (answers : List Answer) (s t : State) (k : Nat), p.wf = true →
    (∀ a ∈ answers, a.fits p.regBits = true) → launch p bytes answers = some s → runFor k s = .next t →
    t.Inv ∧ t.image = Memory.ofBytes bytes ∧ t.params = p

/-! ### The toolchain contract -/

/-- An assembled image is one byte for each instruction line and the halt byte at its end (30_encoding.md R92). -/
def Obligations.AssembledImageEndsInTheHaltByte : Prop :=
  ∀ (src : Text) (image : List Byte), assembleText src = .ok image →
    ∃ body, image = body ++ [0xE0#8] ∧ body.length = (instructionLines src).length

/-- The assembler never emits MOV to R0, a minus-zero branch or a reserved code (30_encoding.md R74, R76, R78). -/
def Obligations.AssemblerNeverEmitsForbiddenBytes : Prop :=
  ∀ (src : Text) (image : List Byte), assembleText src = .ok image → ∀ b ∈ image,
    b ≠ 0x20#8 ∧ b ≠ 0x30#8 ∧ b ≠ 0x90#8 ∧ b ≠ 0xB0#8 ∧ b ≠ 0xD0#8 ∧ b.toNat < 0xED

/-- An assembled branch reaches its label (30_encoding.md R90): where the instruction line at index `c` of a text that
assembles is a branch mnemonic and a label, the image's byte at `c` holds the mnemonic's opcode, and its displacement
added to `c` is the index the label stands for. -/
def Obligations.AssembledBranchReachesItsLabel : Prop :=
  ∀ (src : Text) (image : List Byte) (c op : Nat) (line m name : Text), assembleText src = .ok image →
    (instructionLines src)[c]? = some line → tokens line = [m, name] → branchOp m = some op →
    ∃ (b : Byte) (labels : LabelTable) (target : Nat), image[c]? = some b ∧
      collectLabels 0 0 [] (sourceLines src) = .ok labels ∧ labels.find name = some target ∧
      (c : Int) + dispField b = (target : Int) ∧ (opField b).toNat = op

/-- A label names the index of the next instruction in the image (30_encoding.md R87): the number of instruction
lines before it; and a name declared twice is an error. -/
def Obligations.LabelsNameTheNextInstruction : Prop :=
  (∀ (before after : List Text) (line : Text) (table : LabelTable), isLabelLine line = true →
    collectLabels 0 0 [] (before ++ line :: after) = .ok table →
    table.find (labelName line) = some (before.filter (fun l => !isLabelLine l)).length) ∧
  (∀ (a b c : List Text) (l1 l2 : Text) (table : LabelTable), isLabelLine l1 = true → isLabelLine l2 = true →
    labelName l1 = labelName l2 → collectLabels 0 0 [] (a ++ l1 :: b ++ l2 :: c) ≠ .ok table)
end

