-- ==== Sys2Proof/Laws/PerInstr.lean ====
section
/-! SUPPORT. A family of facts about each instruction's encoding: its top three bits are its opcode (30_encoding.md
R71, R72, R82). -/

namespace Sys2Proof.Laws.OpcodeBits

/-- The byte of a well-formed instruction holds the instruction's opcode in bits 7:5, under every map. -/
def Statement (i : Instr) : Prop :=
  ∀ m : SyscallMap, i.wf = true → (opField (encodeByteWith m i)).toNat = i.opcode

theorem opField_ofNat (n : Nat) : (opField (BitVec.ofNat 8 n)).toNat = n / 32 % 8 := by
  simp only [opField, BitVec.extractLsb'_toNat, BitVec.toNat_ofNat, Nat.shiftRight_eq_div_pow]
  omega

theorem opField_encM (op s n : Nat) (ho : op < 8) (hs : s < 2) (hn : n < 16) : (opField (encM op s n)).toNat = op := by
  unfold encM; rw [opField_ofNat]; omega

theorem opField_encB (op : Nat) (d : Int) (ho : op < 8) (hd : dispInRange d = true) :
    (opField (encB op d)).toNat = op := by
  simp only [dispInRange, Bool.and_eq_true, decide_eq_true_eq] at hd
  unfold encB; rw [opField_ofNat]; split <;> omega

theorem opField_encC (code : Nat) (h : code < 32) : (opField (encC code)).toNat = 7 := by
  unfold encC; rw [opField_ofNat]; omega

theorem codeOf_lt (m : SyscallMap) (n : Syscall) : m.codeOf n < 32 := by
  have h : m.toList.idxOf n ≤ m.toList.length := List.idxOf_le_length
  have hl : m.toList.length = 13 := by simp
  unfold SyscallMap.codeOf; omega

theorem set (s : Dmr) (imm : BitVec 4) : Statement (.set s imm) := fun _ _ =>
  opField_encM 0 _ _ (by omega) s.isLt imm.isLt
theorem mov (s : Dmr) (n : Reg) : Statement (.mov s n) := fun _ _ => opField_encM 1 _ _ (by omega) s.isLt n.isLt
theorem get (s : Dmr) (n : Reg) : Statement (.get s n) := fun _ _ => opField_encM 2 _ _ (by omega) s.isLt n.isLt
theorem cmp (s : Dmr) (n : Reg) : Statement (.cmp s n) := fun _ _ => opField_encM 3 _ _ (by omega) s.isLt n.isLt
theorem jmp (d : Int) : Statement (.jmp d) := fun _ h => opField_encB 4 d (by omega) h
theorem jie (d : Int) : Statement (.jie d) := fun _ h => opField_encB 5 d (by omega) h
theorem jig (d : Int) : Statement (.jig d) := fun _ h => opField_encB 6 d (by omega) h
theorem calExit : Statement .calExit := fun m _ => opField_encC _ (codeOf_lt m .exit)
theorem calAdd : Statement .calAdd := fun m _ => opField_encC _ (codeOf_lt m .add)
theorem calSub : Statement .calSub := fun m _ => opField_encC _ (codeOf_lt m .sub)
theorem calAnd : Statement .calAnd := fun m _ => opField_encC _ (codeOf_lt m .and)
theorem calOr : Statement .calOr := fun m _ => opField_encC _ (codeOf_lt m .or)
theorem calXor : Statement .calXor := fun m _ => opField_encC _ (codeOf_lt m .xor)
theorem calNot : Statement .calNot := fun m _ => opField_encC _ (codeOf_lt m .not)
theorem calInc : Statement .calInc := fun m _ => opField_encC _ (codeOf_lt m .inc)
theorem calDec : Statement .calDec := fun m _ => opField_encC _ (codeOf_lt m .dec)
theorem calPc : Statement .calPc := fun m _ => opField_encC _ (codeOf_lt m .pc)
theorem calRet : Statement .calRet := fun m _ => opField_encC _ (codeOf_lt m .ret)
theorem calGeti : Statement .calGeti := fun m _ => opField_encC _ (codeOf_lt m .geti)
theorem calPuti : Statement .calPuti := fun m _ => opField_encC _ (codeOf_lt m .puti)
theorem calReserved13 : Statement .calReserved13 := fun _ _ => opField_encC 13 (by omega)
theorem calReserved14 (c : BitVec 1) : Statement (.calReserved14 c) := fun _ _ =>
  opField_encC _ (by have := c.isLt; omega)
theorem calReserved16 (c : BitVec 4) : Statement (.calReserved16 c) := fun _ _ =>
  opField_encC _ (by have := c.isLt; omega)

end Sys2Proof.Laws.OpcodeBits
end

