-- ==== Sys2Proof/Laws/Decode.lean ====
section
/-! SUPPORT. The decoder's fields as numbers, and what the decoder can answer. -/

namespace Sys2Proof

theorem opField_toNat (b : Byte) : (opField b).toNat = b.toNat / 32 := by
  have h := b.isLt
  simp only [opField, BitVec.extractLsb'_toNat, Nat.shiftRight_eq_div_pow]
  omega

theorem lowField_toNat (b : Byte) : (lowField b).toNat = b.toNat % 16 := by
  simp [lowField, BitVec.extractLsb'_toNat]

theorem codeField_toNat (b : Byte) : (codeField b).toNat = b.toNat % 32 := by
  simp [codeField, BitVec.extractLsb'_toNat]

theorem selField_val (b : Byte) : (selField b).val = b.toNat / 16 % 2 := by
  have h : (selField b).val = (b.extractLsb' 4 1).toNat := rfl
  rw [h]
  simp [BitVec.extractLsb'_toNat, Nat.shiftRight_eq_div_pow]

theorem regField_val (b : Byte) : (regField b).val = b.toNat % 16 := by
  have h : (regField b).val = (lowField b).toNat := rfl
  rw [h, lowField_toNat]

theorem signBit_eq (b : Byte) : b.getLsbD 4 = decide (b.toNat / 16 % 2 = 1) := by
  rw [← BitVec.testBit_toNat, Nat.testBit_eq_decide_div_mod_eq]

/-- The displacement field as a number (30_encoding.md R74). -/
theorem dispField_eq (b : Byte) :
    dispField b = if b.toNat / 16 % 2 = 1 then -((b.toNat % 16 : Nat) : Int) else ((b.toNat % 16 : Nat) : Int) := by
  unfold dispField
  rw [signBit_eq, lowField_toNat]
  by_cases h : b.toNat / 16 % 2 = 1 <;> simp [h]

/-- Every displacement the decoder reads lies in [-15, 15] (30_encoding.md R74). -/
theorem dispField_inRange (b : Byte) : dispInRange (dispField b) = true := by
  rw [dispField_eq]
  simp only [dispInRange, Bool.and_eq_true, decide_eq_true_eq]
  split <;> omega

theorem wf_toInstr (n : Syscall) : n.toInstr.wf = true := by cases n <;> rfl

theorem decodeCall_wf (m : SyscallMap) (code : BitVec 5) : (decodeCall m code).wf = true := by
  unfold decodeCall
  split
  · exact wf_toInstr _
  · split
    · rfl
    · split <;> rfl

/-- Every byte decodes to a well-formed instruction (30_encoding.md R81). -/
theorem decodeByteWith_wf (m : SyscallMap) (b : Byte) : (decodeByteWith m b).wf = true := by
  unfold decodeByteWith
  split
  · rfl
  · split
    all_goals first
      | rfl
      | exact dispField_inRange b
      | exact decodeCall_wf m _

end Sys2Proof
end

