-- ==== Sys2Proof/Laws/State.lean ====
section
/-! SUPPORT. What each update leaves in each field of State, one lemma per field per update. -/

namespace Sys2Proof.Machine

/-! ### writeX -/

@[simp] theorem writeX_d (s : State) (n : Reg) (v : Nat) : (writeX s n v).d = s.d := by
  unfold writeX; split <;> rfl
@[simp] theorem writeX_pc (s : State) (n : Reg) (v : Nat) : (writeX s n v).pc = s.pc := by
  unfold writeX; split <;> rfl
@[simp] theorem writeX_status (s : State) (n : Reg) (v : Nat) : (writeX s n v).status = s.status := by
  unfold writeX; split <;> rfl
@[simp] theorem writeX_out (s : State) (n : Reg) (v : Nat) : (writeX s n v).out = s.out := by
  unfold writeX; split <;> rfl
@[simp] theorem writeX_answers (s : State) (n : Reg) (v : Nat) : (writeX s n v).answers = s.answers := by
  unfold writeX; split <;> rfl
@[simp] theorem writeX_inbox (s : State) (n : Reg) (v : Nat) : (writeX s n v).inbox = s.inbox := by
  unfold writeX; split <;> rfl
@[simp] theorem writeX_pastOut (s : State) (n : Reg) (v : Nat) : (writeX s n v).pastOut = s.pastOut := by
  unfold writeX; split <;> rfl
@[simp] theorem writeX_resetIn (s : State) (n : Reg) (v : Nat) : (writeX s n v).resetIn = s.resetIn := by
  unfold writeX; split <;> rfl
@[simp] theorem writeX_image (s : State) (n : Reg) (v : Nat) : (writeX s n v).image = s.image := by
  unfold writeX; split <;> rfl
@[simp] theorem writeX_params (s : State) (n : Reg) (v : Nat) : (writeX s n v).params = s.params := by
  unfold writeX; split <;> rfl

/-! ### writeD -/

@[simp] theorem writeD_x (s : State) (i : Dmr) (v : Nat) : (writeD s i v).x = s.x := rfl
@[simp] theorem writeD_d (s : State) (i : Dmr) (v : Nat) : (writeD s i v).d = s.d.set i v := rfl
@[simp] theorem writeD_pc (s : State) (i : Dmr) (v : Nat) : (writeD s i v).pc = s.pc := rfl
@[simp] theorem writeD_status (s : State) (i : Dmr) (v : Nat) : (writeD s i v).status = s.status := rfl
@[simp] theorem writeD_out (s : State) (i : Dmr) (v : Nat) : (writeD s i v).out = s.out := rfl
@[simp] theorem writeD_answers (s : State) (i : Dmr) (v : Nat) : (writeD s i v).answers = s.answers := rfl
@[simp] theorem writeD_inbox (s : State) (i : Dmr) (v : Nat) : (writeD s i v).inbox = s.inbox := rfl
@[simp] theorem writeD_pastOut (s : State) (i : Dmr) (v : Nat) : (writeD s i v).pastOut = s.pastOut := rfl
@[simp] theorem writeD_resetIn (s : State) (i : Dmr) (v : Nat) : (writeD s i v).resetIn = s.resetIn := rfl
@[simp] theorem writeD_image (s : State) (i : Dmr) (v : Nat) : (writeD s i v).image = s.image := rfl
@[simp] theorem writeD_params (s : State) (i : Dmr) (v : Nat) : (writeD s i v).params = s.params := rfl

/-! ### setPc -/

@[simp] theorem setPc_x (s : State) (p : Nat) : (setPc s p).x = s.x := rfl
@[simp] theorem setPc_d (s : State) (p : Nat) : (setPc s p).d = s.d := rfl
@[simp] theorem setPc_pc (s : State) (p : Nat) : (setPc s p).pc = p := rfl
@[simp] theorem setPc_status (s : State) (p : Nat) : (setPc s p).status = s.status := rfl
@[simp] theorem setPc_out (s : State) (p : Nat) : (setPc s p).out = s.out := rfl
@[simp] theorem setPc_answers (s : State) (p : Nat) : (setPc s p).answers = s.answers := rfl
@[simp] theorem setPc_inbox (s : State) (p : Nat) : (setPc s p).inbox = s.inbox := rfl
@[simp] theorem setPc_pastOut (s : State) (p : Nat) : (setPc s p).pastOut = s.pastOut := rfl
@[simp] theorem setPc_resetIn (s : State) (p : Nat) : (setPc s p).resetIn = s.resetIn := rfl
@[simp] theorem setPc_image (s : State) (p : Nat) : (setPc s p).image = s.image := rfl
@[simp] theorem setPc_params (s : State) (p : Nat) : (setPc s p).params = s.params := rfl

/-! ### advance -/

@[simp] theorem advance_x (s : State) : (advance s).x = s.x := rfl
@[simp] theorem advance_d (s : State) : (advance s).d = s.d := rfl
@[simp] theorem advance_pc (s : State) : (advance s).pc = s.pc + 1 := rfl
@[simp] theorem advance_status (s : State) : (advance s).status = s.status := rfl
@[simp] theorem advance_out (s : State) : (advance s).out = s.out := rfl
@[simp] theorem advance_answers (s : State) : (advance s).answers = s.answers := rfl
@[simp] theorem advance_inbox (s : State) : (advance s).inbox = s.inbox := rfl
@[simp] theorem advance_pastOut (s : State) : (advance s).pastOut = s.pastOut := rfl
@[simp] theorem advance_resetIn (s : State) : (advance s).resetIn = s.resetIn := rfl
@[simp] theorem advance_image (s : State) : (advance s).image = s.image := rfl
@[simp] theorem advance_params (s : State) : (advance s).params = s.params := rfl

/-! ### setStatus -/

@[simp] theorem setStatus_x (s : State) (st : Status) : (setStatus s st).x = s.x := rfl
@[simp] theorem setStatus_d (s : State) (st : Status) : (setStatus s st).d = s.d := rfl
@[simp] theorem setStatus_pc (s : State) (st : Status) : (setStatus s st).pc = s.pc := rfl
@[simp] theorem setStatus_status (s : State) (st : Status) : (setStatus s st).status = st := rfl
@[simp] theorem setStatus_out (s : State) (st : Status) : (setStatus s st).out = s.out := rfl
@[simp] theorem setStatus_answers (s : State) (st : Status) : (setStatus s st).answers = s.answers := rfl
@[simp] theorem setStatus_inbox (s : State) (st : Status) : (setStatus s st).inbox = s.inbox := rfl
@[simp] theorem setStatus_pastOut (s : State) (st : Status) : (setStatus s st).pastOut = s.pastOut := rfl
@[simp] theorem setStatus_resetIn (s : State) (st : Status) : (setStatus s st).resetIn = s.resetIn := rfl
@[simp] theorem setStatus_image (s : State) (st : Status) : (setStatus s st).image = s.image := rfl
@[simp] theorem setStatus_params (s : State) (st : Status) : (setStatus s st).params = s.params := rfl

/-! ### haltCore -/

@[simp] theorem haltCore_x (s : State) : (haltCore s).x = s.x := rfl
@[simp] theorem haltCore_d (s : State) : (haltCore s).d = s.d := rfl
@[simp] theorem haltCore_pc (s : State) : (haltCore s).pc = s.pc := rfl
@[simp] theorem haltCore_status (s : State) : (haltCore s).status = .halted := rfl
@[simp] theorem haltCore_out (s : State) : (haltCore s).out = s.out := rfl
@[simp] theorem haltCore_answers (s : State) : (haltCore s).answers = s.answers := rfl
@[simp] theorem haltCore_inbox (s : State) : (haltCore s).inbox = s.inbox := rfl
@[simp] theorem haltCore_pastOut (s : State) : (haltCore s).pastOut = s.pastOut := rfl
@[simp] theorem haltCore_resetIn (s : State) : (haltCore s).resetIn = s.resetIn := rfl
@[simp] theorem haltCore_image (s : State) : (haltCore s).image = s.image := rfl
@[simp] theorem haltCore_params (s : State) : (haltCore s).params = s.params := rfl

/-! ### outWrite -/

@[simp] theorem outWrite_x (s : State) (v : Nat) : (outWrite s v).x = s.x := rfl
@[simp] theorem outWrite_d (s : State) (v : Nat) : (outWrite s v).d = s.d := rfl
@[simp] theorem outWrite_pc (s : State) (v : Nat) : (outWrite s v).pc = s.pc := rfl
@[simp] theorem outWrite_status (s : State) (v : Nat) : (outWrite s v).status = s.status := rfl
@[simp] theorem outWrite_out (s : State) (v : Nat) : (outWrite s v).out = s.out ++ [v] := rfl
@[simp] theorem outWrite_answers (s : State) (v : Nat) : (outWrite s v).answers = s.answers := rfl
@[simp] theorem outWrite_inbox (s : State) (v : Nat) : (outWrite s v).inbox = s.inbox := rfl
@[simp] theorem outWrite_pastOut (s : State) (v : Nat) : (outWrite s v).pastOut = s.pastOut := rfl
@[simp] theorem outWrite_resetIn (s : State) (v : Nat) : (outWrite s v).resetIn = s.resetIn := rfl
@[simp] theorem outWrite_image (s : State) (v : Nat) : (outWrite s v).image = s.image := rfl
@[simp] theorem outWrite_params (s : State) (v : Nat) : (outWrite s v).params = s.params := rfl

/-! ### takeAnswer -/

@[simp] theorem takeAnswer_x (s : State) (a : Answer) (rest : List Answer) : (takeAnswer s a rest).x = s.x := rfl
@[simp] theorem takeAnswer_d (s : State) (a : Answer) (rest : List Answer) : (takeAnswer s a rest).d = s.d := rfl
@[simp] theorem takeAnswer_pc (s : State) (a : Answer) (rest : List Answer) : (takeAnswer s a rest).pc = s.pc := rfl
@[simp] theorem takeAnswer_status (s : State) (a : Answer) (rest : List Answer) : (takeAnswer s a rest).status = s.status := rfl
@[simp] theorem takeAnswer_out (s : State) (a : Answer) (rest : List Answer) : (takeAnswer s a rest).out = s.out := rfl
@[simp] theorem takeAnswer_answers (s : State) (a : Answer) (rest : List Answer) : (takeAnswer s a rest).answers = s.answers ++ [a] := rfl
@[simp] theorem takeAnswer_inbox (s : State) (a : Answer) (rest : List Answer) : (takeAnswer s a rest).inbox = rest := rfl
@[simp] theorem takeAnswer_pastOut (s : State) (a : Answer) (rest : List Answer) : (takeAnswer s a rest).pastOut = s.pastOut := rfl
@[simp] theorem takeAnswer_resetIn (s : State) (a : Answer) (rest : List Answer) : (takeAnswer s a rest).resetIn = s.resetIn := rfl
@[simp] theorem takeAnswer_image (s : State) (a : Answer) (rest : List Answer) : (takeAnswer s a rest).image = s.image := rfl
@[simp] theorem takeAnswer_params (s : State) (a : Answer) (rest : List Answer) : (takeAnswer s a rest).params = s.params := rfl

/-! ### placeAtPc -/

@[simp] theorem placeAtPc_x (s : State) (b : Byte) : (placeAtPc s b).x = s.x := rfl
@[simp] theorem placeAtPc_d (s : State) (b : Byte) : (placeAtPc s b).d = s.d := rfl
@[simp] theorem placeAtPc_pc (s : State) (b : Byte) : (placeAtPc s b).pc = s.pc := rfl
@[simp] theorem placeAtPc_status (s : State) (b : Byte) : (placeAtPc s b).status = .running := rfl
@[simp] theorem placeAtPc_out (s : State) (b : Byte) : (placeAtPc s b).out = s.out := rfl
@[simp] theorem placeAtPc_answers (s : State) (b : Byte) : (placeAtPc s b).answers = s.answers := rfl
@[simp] theorem placeAtPc_inbox (s : State) (b : Byte) : (placeAtPc s b).inbox = s.inbox := rfl
@[simp] theorem placeAtPc_pastOut (s : State) (b : Byte) : (placeAtPc s b).pastOut = s.pastOut := rfl
@[simp] theorem placeAtPc_resetIn (s : State) (b : Byte) : (placeAtPc s b).resetIn = false := rfl
@[simp] theorem placeAtPc_image (s : State) (b : Byte) : (placeAtPc s b).image = Memory.place s.params.imemSize s.image s.pc b := rfl
@[simp] theorem placeAtPc_params (s : State) (b : Byte) : (placeAtPc s b).params = s.params := rfl

/-! ### storeResult -/

@[simp] theorem storeResult_d (s : State) (v : Nat) : (storeResult s v).d = s.d := by
  simp [storeResult]
@[simp] theorem storeResult_pc (s : State) (v : Nat) : (storeResult s v).pc = s.pc + 1 := by
  simp [storeResult]
@[simp] theorem storeResult_status (s : State) (v : Nat) : (storeResult s v).status = s.status := by
  simp [storeResult]
@[simp] theorem storeResult_out (s : State) (v : Nat) : (storeResult s v).out = s.out := by
  simp [storeResult]
@[simp] theorem storeResult_answers (s : State) (v : Nat) : (storeResult s v).answers = s.answers := by
  simp [storeResult]
@[simp] theorem storeResult_inbox (s : State) (v : Nat) : (storeResult s v).inbox = s.inbox := by
  simp [storeResult]
@[simp] theorem storeResult_pastOut (s : State) (v : Nat) : (storeResult s v).pastOut = s.pastOut := by
  simp [storeResult]
@[simp] theorem storeResult_resetIn (s : State) (v : Nat) : (storeResult s v).resetIn = s.resetIn := by
  simp [storeResult]
@[simp] theorem storeResult_image (s : State) (v : Nat) : (storeResult s v).image = s.image := by
  simp [storeResult]
@[simp] theorem storeResult_params (s : State) (v : Nat) : (storeResult s v).params = s.params := by
  simp [storeResult]

/-! ### writeFlags -/

@[simp] theorem writeFlags_d (s : State) (a r : Nat) : (writeFlags s a r).d = s.d := by
  simp [writeFlags]
@[simp] theorem writeFlags_pc (s : State) (a r : Nat) : (writeFlags s a r).pc = s.pc := by
  simp [writeFlags]
@[simp] theorem writeFlags_status (s : State) (a r : Nat) : (writeFlags s a r).status = s.status := by
  simp [writeFlags]
@[simp] theorem writeFlags_out (s : State) (a r : Nat) : (writeFlags s a r).out = s.out := by
  simp [writeFlags]
@[simp] theorem writeFlags_answers (s : State) (a r : Nat) : (writeFlags s a r).answers = s.answers := by
  simp [writeFlags]
@[simp] theorem writeFlags_inbox (s : State) (a r : Nat) : (writeFlags s a r).inbox = s.inbox := by
  simp [writeFlags]
@[simp] theorem writeFlags_pastOut (s : State) (a r : Nat) : (writeFlags s a r).pastOut = s.pastOut := by
  simp [writeFlags]
@[simp] theorem writeFlags_resetIn (s : State) (a r : Nat) : (writeFlags s a r).resetIn = s.resetIn := by
  simp [writeFlags]
@[simp] theorem writeFlags_image (s : State) (a r : Nat) : (writeFlags s a r).image = s.image := by
  simp [writeFlags]
@[simp] theorem writeFlags_params (s : State) (a r : Nat) : (writeFlags s a r).params = s.params := by
  simp [writeFlags]

/-! ### raiseFault -/

@[simp] theorem raiseFault_x (r : FaultReason) (s : State) : (raiseFault r s).x = s.x := rfl
@[simp] theorem raiseFault_d (r : FaultReason) (s : State) : (raiseFault r s).d = s.d := rfl
@[simp] theorem raiseFault_pc (r : FaultReason) (s : State) : (raiseFault r s).pc = s.pc := rfl
@[simp] theorem raiseFault_status (r : FaultReason) (s : State) : (raiseFault r s).status = .faulted r := rfl
@[simp] theorem raiseFault_out (r : FaultReason) (s : State) : (raiseFault r s).out = s.out := rfl
@[simp] theorem raiseFault_answers (r : FaultReason) (s : State) : (raiseFault r s).answers = s.answers := rfl
@[simp] theorem raiseFault_inbox (r : FaultReason) (s : State) : (raiseFault r s).inbox = s.inbox := rfl
@[simp] theorem raiseFault_pastOut (r : FaultReason) (s : State) : (raiseFault r s).pastOut = s.pastOut := rfl
@[simp] theorem raiseFault_resetIn (r : FaultReason) (s : State) : (raiseFault r s).resetIn = s.resetIn := rfl
@[simp] theorem raiseFault_image (r : FaultReason) (s : State) : (raiseFault r s).image = s.image := rfl
@[simp] theorem raiseFault_params (r : FaultReason) (s : State) : (raiseFault r s).params = s.params := rfl

/-! ### applyReset -/

@[simp] theorem applyReset_x (s : State) : (applyReset s).x = Vector.replicate 16 0 := rfl
@[simp] theorem applyReset_d (s : State) : (applyReset s).d = Vector.replicate 2 0 := rfl
@[simp] theorem applyReset_pc (s : State) : (applyReset s).pc = 0 := rfl
@[simp] theorem applyReset_status (s : State) : (applyReset s).status = .running := rfl
@[simp] theorem applyReset_out (s : State) : (applyReset s).out = [] := rfl
@[simp] theorem applyReset_answers (s : State) : (applyReset s).answers = [] := rfl
@[simp] theorem applyReset_inbox (s : State) : (applyReset s).inbox = s.inbox := rfl
@[simp] theorem applyReset_pastOut (s : State) : (applyReset s).pastOut = s.pastOut ++ s.out := rfl
@[simp] theorem applyReset_resetIn (s : State) : (applyReset s).resetIn = false := rfl
@[simp] theorem applyReset_image (s : State) : (applyReset s).image = s.image := rfl
@[simp] theorem applyReset_params (s : State) : (applyReset s).params = s.params := rfl

end Sys2Proof.Machine
end

