-- ==== Sys2Proof/Laws/Memory.lean ====
section
/-! SUPPORT. Reading an image, and that every operation over images keeps the canonical form. -/

namespace Sys2Proof.Machine

theorem Memory.contiguousFrom_ofBytesFrom (bytes : List Byte) :
    ∀ base, Memory.contiguousFrom base (Memory.ofBytesFrom base bytes) = true := by
  induction bytes with
  | nil => intro base; rfl
  | cons b rest ih => intro base; simp [Memory.ofBytesFrom, Memory.contiguousFrom, ih]

@[simp] theorem Memory.length_ofBytesFrom (bytes : List Byte) :
    ∀ base, (Memory.ofBytesFrom base bytes).length = bytes.length := by
  induction bytes with
  | nil => intro base; rfl
  | cons b rest ih => intro base; simp [Memory.ofBytesFrom, ih]

theorem Memory.contiguousFrom_append (l r : List Host.Cell) :
    ∀ base, Memory.contiguousFrom base (l ++ r) =
      (Memory.contiguousFrom base l && Memory.contiguousFrom (base + l.length) r) := by
  induction l with
  | nil => intro base; simp [Memory.contiguousFrom]
  | cons c rest ih =>
    intro base
    have hb : base + 1 + rest.length = base + (rest.length + 1) := by omega
    simp [Memory.contiguousFrom, ih, Bool.and_assoc, hb]

theorem Memory.contiguousFrom_replace (img : List Host.Cell) (a : Nat) (b : Byte) :
    ∀ base, Memory.contiguousFrom base (Memory.replace img a b) = Memory.contiguousFrom base img := by
  induction img with
  | nil => intro base; rfl
  | cons c rest ih =>
    intro base
    have hrest : Memory.replace (c :: rest) a b = (if c.1 = a then (c.1, b) else c) :: Memory.replace rest a b := rfl
    rw [hrest]
    simp only [Memory.contiguousFrom, ih]
    split <;> rfl

/-- The empty image of the reset state has the canonical form. -/
theorem Memory.wf_nil (size : Nat) : Memory.wf size [] = true := by simp [Memory.wf, Memory.contiguousFrom]

/-- The image of a byte sequence no longer than the address space has the canonical form (20_memory.md R51). -/
theorem Memory.wf_ofBytes (size : Nat) (bytes : List Byte) (h : bytes.length ≤ size) :
    Memory.wf size (Memory.ofBytes bytes) = true := by
  simp [Memory.wf, Memory.ofBytes, Memory.contiguousFrom_ofBytesFrom, h]

/-- Placing a byte keeps the canonical form. -/
theorem Memory.wf_place (size : Nat) (img : List Host.Cell) (a : Nat) (b : Byte) (h : Memory.wf size img = true) :
    Memory.wf size (Memory.place size img a b) = true := by
  simp only [Memory.wf, Bool.and_eq_true, decide_eq_true_eq] at h ⊢
  unfold Memory.place
  split
  · exact ⟨by rw [Memory.contiguousFrom_replace]; exact h.1, by simpa [Memory.replace] using h.2⟩
  · split
    · refine ⟨?_, ?_⟩
      · rw [Memory.contiguousFrom_append, h.1, Nat.zero_add, Memory.contiguousFrom_ofBytesFrom]; rfl
      · simp only [List.length_append, Memory.length_ofBytesFrom, List.length_replicate, List.length_cons,
          List.length_nil]
        omega
    · exact h

/-- Reading a list of contiguous cells: the cell at the address's place. -/
theorem Memory.read_of_contiguous (img : List Host.Cell) :
    ∀ base a, Memory.contiguousFrom base img = true →
      Memory.read img (base + a) = (img[a]?).map Prod.snd := by
  induction img with
  | nil => intro base a _; rfl
  | cons c rest ih =>
    intro base a h
    simp only [Memory.contiguousFrom, Bool.and_eq_true, beq_iff_eq] at h
    cases a with
    | zero => simp [Memory.read, h.1]
    | succ k =>
      have hne : c.1 ≠ base + (k + 1) := by omega
      have := ih (base + 1) k h.2
      simp only [Memory.read, hne, if_false, List.getElem?_cons_succ]
      rw [show base + (k + 1) = base + 1 + k by omega]
      exact this

/-- In a canonical image an address has a byte exactly below `L` (20_memory.md R52, R56). -/
theorem Memory.read_isSome (size : Nat) (img : List Host.Cell) (a : Nat) (h : Memory.wf size img = true) :
    (Memory.read img a).isSome = decide (a < Memory.size img) := by
  simp only [Memory.wf, Bool.and_eq_true] at h
  have := Memory.read_of_contiguous img 0 a h.1
  rw [Nat.zero_add] at this
  rw [this, Option.isSome_map]
  by_cases hlt : a < img.length <;> simp [Memory.size, hlt]

/-- The fetch finds nothing exactly when `pc >= L` (20_memory.md R52). -/
theorem fetchByte_eq_none_iff (size : Nat) (s : State) (h : Memory.wf size s.image = true) :
    fetchByte s = none ↔ Memory.size s.image ≤ s.pc := by
  have hr := Memory.read_isSome size s.image s.pc h
  unfold fetchByte
  split
  · rename_i hlt
    rw [decide_eq_true hlt] at hr
    constructor
    · intro hn; rw [hn] at hr; simp at hr
    · intro hge; omega
  · constructor
    · intro _; omega
    · intro _; rfl

/-- A fetched byte stands below the end of the address space. -/
theorem pc_lt_of_fetchByte (size : Nat) (s : State) (b : Byte) (h : fetchByte s = some b)
    (hw : Memory.wf size s.image = true) : s.pc < size := by
  simp only [Memory.wf, Bool.and_eq_true, decide_eq_true_eq] at hw
  unfold fetchByte at h
  split at h
  · rename_i hlt; exact Nat.lt_of_lt_of_le hlt hw.2
  · cases h

theorem Memory.read_ofBytesFrom (bytes : List Byte) (base a : Nat) :
    Memory.read (Memory.ofBytesFrom base bytes) (base + a) = bytes[a]? := by
  have h := Memory.read_of_contiguous _ base a (Memory.contiguousFrom_ofBytesFrom bytes base)
  rw [h]
  clear h
  induction bytes generalizing base a with
  | nil => rfl
  | cons b rest ih =>
    cases a with
    | zero => rfl
    | succ k => simpa [Memory.ofBytesFrom] using ih (base + 1) k

/-- Two states with one image and one `pc` fetch one byte. -/
theorem fetchByte_congr (s t : State) (hi : t.image = s.image) (hp : t.pc = s.pc) : fetchByte t = fetchByte s := by
  simp [fetchByte, hi, hp]

end Sys2Proof.Machine
end

