-- ==== Sys2Proof/Laws/Operands.lean ====
section
/-! SUPPORT. The results of the operand and arithmetic operations as numbers, and that each is in `[0, 2^W)`. -/

namespace Sys2Proof.Machine

/-- `trunc_W` of a natural number is its remainder (00_scope.md R6). -/
theorem truncW_natCast (w n : Nat) : truncW w (n : Int) = n % 2 ^ w := by
  unfold truncW; rw [← Int.natCast_mod]; rfl

/-- `trunc_W` as an integer: the non-negative residue (00_scope.md R6). -/
theorem truncW_cast (w : Nat) (v : Int) : ((truncW w v : Nat) : Int) = v % ((2 ^ w : Nat) : Int) := by
  unfold truncW
  exact Int.toNat_of_nonneg (Int.emod_nonneg _ (Int.natCast_pos.mpr (Nat.two_pow_pos w)).ne')

/-- `trunc_W` gives a register value (00_scope.md R7). -/
theorem truncW_lt (w : Nat) (v : Int) : truncW w v < 2 ^ w := by
  have hw : (0 : Int) < ((2 ^ w : Nat) : Int) := Int.natCast_pos.mpr (Nat.two_pow_pos w)
  have hlt := Int.emod_lt_of_pos v hw
  rw [← truncW_cast] at hlt
  exact Int.ofNat_lt.mp hlt

/-- JMP and PC save the address itself where it fits (10_state.md R25). -/
theorem pcWord_of_lt (s : State) (h : s.pc < 2 ^ s.params.regBits) : pcWord s = s.pc := by
  unfold pcWord; rw [truncW_natCast]; exact Nat.mod_eq_of_lt h

/-- The zero-extended immediate is below 16 (30_encoding.md R73). -/
theorem zextImm_lt (imm : BitVec 4) : zextImm imm < 16 := imm.isLt

/-- NOT's result is a register value, whatever it reads (42_syscalls.md R157). -/
theorem complementW_lt (w : Nat) (v : Nat) : complementW w v < 2 ^ w :=
  Nat.lt_of_le_of_lt (Nat.sub_le _ _) (Nat.sub_lt (Nat.two_pow_pos w) Nat.one_pos)

/-- NOT complements each of the `W` bits (42_syscalls.md R157). -/
theorem testBit_complementW (w k : Nat) (v : Nat) (hv : v < 2 ^ w) (hk : k < w) :
    (complementW w v).testBit k = !v.testBit k := by
  rw [complementW, Nat.sub_sub, Nat.add_comm 1 v, Nat.testBit_two_pow_sub_succ hv]
  simp [hk]

/-- A flag is 0 or 1 (10_state.md R26). -/
theorem greaterFlag_le (a r : Nat) : greaterFlag a r ≤ 1 := by unfold greaterFlag; split <;> decide

theorem lessFlag_le (a r : Nat) : lessFlag a r ≤ 1 := by unfold lessFlag; split <;> decide

end Sys2Proof.Machine
end

