-- ==== Sys2Proof/Laws/Registers.lean ====
section
/-! SUPPORT. Reads after writes of the two register files, and R0. -/

namespace Sys2Proof.Machine

/-- A write to R0 is discarded (10_state.md R21). -/
@[simp] theorem writeX_zero (s : State) (v : Nat) : writeX s 0 v = s := by simp [writeX]

theorem readX_writeX_same (s : State) (n : Reg) (v : Nat) (h : n ≠ 0) : readX (writeX s n v) n = v := by
  simp [readX, writeX, h]

theorem readX_writeX_ne (s : State) (n k : Reg) (v : Nat) (h : k ≠ n) : readX (writeX s n v) k = readX s k := by
  have hv : n.val ≠ k.val := fun e => h (Fin.ext e).symm
  unfold readX writeX
  split
  · rfl
  · exact Vector.getElem_set_ne n.isLt k.isLt hv

/-- What a register reads after a write to any register. -/
theorem readX_writeX (s : State) (n k : Reg) (v : Nat) :
    readX (writeX s n v) k = if k = n ∧ n ≠ 0 then v else readX s k := by
  by_cases hk : k = n
  · subst hk
    by_cases h0 : k = 0
    · subst h0; simp
    · simp [h0, readX_writeX_same]
  · simp [hk, readX_writeX_ne]

/-- No write changes R0 (10_state.md R21). -/
@[simp] theorem readX_writeX_zero (s : State) (n : Reg) (v : Nat) : readX (writeX s n v) 0 = readX s 0 := by
  rw [readX_writeX]
  by_cases h : (0 : Reg) = n
  · subst h; simp
  · simp [h]

/-- What a DMR reads after a write to either. -/
theorem readD_writeD (s : State) (i k : Dmr) (v : Nat) :
    readD (writeD s i v) k = if k = i then v else readD s k := by
  by_cases hk : k = i
  · subst hk; simp [readD, writeD]
  · have hv : i.val ≠ k.val := fun e => hk (Fin.ext e).symm
    simp only [hk, if_false]
    exact Vector.getElem_set_ne i.isLt k.isLt hv

/-! ### Reads do not see the other updates -/

@[simp] theorem readX_setPc (s : State) (p : Nat) (k : Reg) : readX (setPc s p) k = readX s k := rfl
@[simp] theorem readX_advance (s : State) (k : Reg) : readX (advance s) k = readX s k := rfl
@[simp] theorem readX_setStatus (s : State) (st : Status) (k : Reg) : readX (setStatus s st) k = readX s k := rfl
@[simp] theorem readX_haltCore (s : State) (k : Reg) : readX (haltCore s) k = readX s k := rfl
@[simp] theorem readX_raiseFault (r : FaultReason) (s : State) (k : Reg) : readX (raiseFault r s) k = readX s k := rfl
@[simp] theorem readX_writeD (s : State) (i : Dmr) (v : Nat) (k : Reg) : readX (writeD s i v) k = readX s k := rfl
@[simp] theorem readX_outWrite (s : State) (v : Nat) (k : Reg) : readX (outWrite s v) k = readX s k := rfl
@[simp] theorem readX_takeAnswer (s : State) (a : Answer) (rest : List Answer) (k : Reg) :
    readX (takeAnswer s a rest) k = readX s k := rfl
@[simp] theorem readD_writeX (s : State) (n : Reg) (v : Nat) (k : Dmr) : readD (writeX s n v) k = readD s k := by
  simp [readD]
@[simp] theorem readD_advance (s : State) (k : Dmr) : readD (advance s) k = readD s k := rfl

/-- Every register reads 0 after reset (10_state.md R38). -/
@[simp] theorem readX_applyReset (s : State) (k : Reg) : readX (applyReset s) k = 0 := by
  simp [readX]

/-- A result stored in R11, read back (10_state.md R23). -/
theorem readX_storeResult (s : State) (v : Nat) (k : Reg) :
    readX (storeResult s v) k = if k = 11 then v else readX s k := by
  simp [storeResult, readX_writeX]

/-- The registers after CMP's writes (40_manipulation.md R103). -/
theorem readX_writeFlags (s : State) (a r : Nat) (k : Reg) :
    readX (writeFlags s a r) k =
      if k = 15 then lessFlag a r else if k = 14 then greaterFlag a r else readX s k := by
  simp [writeFlags, readX_writeX]

end Sys2Proof.Machine
end

