-- ==== Sys2Proof/Laws/Step.lean ====
section
/-! SUPPORT. What the shared operations and the step can do, said once each. -/

namespace Sys2Proof.Machine

/-- A taken branch faults from `s` or continues `written` at the target (41_branch.md R130). -/
theorem takeBranch_cases (s w : State) (target : Int) :
    (target < 0 ∧ takeBranch s w target = raiseFault .branchTargetNegative s) ∨
    (0 ≤ target ∧ takeBranch s w target = setPc w target.toNat) := by
  unfold takeBranch
  split
  · exact .inl ⟨‹_›, rfl⟩
  · exact .inr ⟨by omega, rfl⟩

/-- ADD and INC fault only under `ADD_OVERFLOW = fault` with a sum that does not fit (42_syscalls.md R152, R158). -/
theorem storeSum_cases (s : State) (sum : Nat) :
    (2 ^ s.params.regBits ≤ sum ∧ s.params.addOverflow = .fault ∧ storeSum s sum = raiseFault .arithOverflow s) ∨
    ((sum < 2 ^ s.params.regBits ∨ s.params.addOverflow = .wrap) ∧
      storeSum s sum = storeResult s (sum % 2 ^ s.params.regBits)) := by
  unfold storeSum overflowFaults
  cases hp : s.params.addOverflow with
  | wrap => exact .inr ⟨.inr rfl, by simp [truncW_natCast]⟩
  | fault =>
    by_cases h : 2 ^ s.params.regBits ≤ sum
    · exact .inl ⟨h, rfl, by simp [h]⟩
    · exact .inr ⟨.inl (by omega), by simp [truncW_natCast, h]⟩

/-- GETI's exchange waits, stores a value, or faults (42_syscalls.md R162). -/
theorem exchangeInput_cases (s : State) :
    (s.inbox = [] ∧ exchangeInput s = setStatus s .awaitingInput) ∨
    (∃ v rest, s.inbox = .value v :: rest ∧
      exchangeInput s = setStatus (storeResult (takeAnswer s (.value v) rest) v) .running) ∨
    (∃ rest, s.inbox = .error :: rest ∧
      exchangeInput s = raiseFault .inputParse (takeAnswer s .error rest)) := by
  unfold exchangeInput
  cases h : s.inbox with
  | nil => exact .inl ⟨rfl, rfl⟩
  | cons a rest =>
    cases a with
    | value v => exact .inr (.inl ⟨v, rest, rfl, rfl⟩)
    | error => exact .inr (.inr ⟨rest, rfl, rfl⟩)

/-- Every instruction answers a next state: no meaning stops. -/
theorem exec_total (i : Instr) (s : State) : ∃ t, exec i s = .next t := by
  cases i <;> exact ⟨_, rfl⟩

/-- What no instruction writes: the launch parameters, the old output, the reset input (10_state.md R27, R37). -/
theorem exec_keeps_launch (i : Instr) (s t : State) (h : exec i s = .next t) :
    t.image = s.image ∧ t.params = s.params ∧ t.pastOut = s.pastOut ∧ t.resetIn = s.resetIn := by
  have hbranch : ∀ w target, w = s ∨ w = writeX s 13 (pcWord s) → (takeBranch s w target).image = s.image ∧
      (takeBranch s w target).params = s.params ∧ (takeBranch s w target).pastOut = s.pastOut ∧
      (takeBranch s w target).resetIn = s.resetIn := by
    rintro w target (rfl | rfl) <;> unfold takeBranch <;> split <;> simp
  have hsum : ∀ sum, (storeSum s sum).image = s.image ∧ (storeSum s sum).params = s.params ∧
      (storeSum s sum).pastOut = s.pastOut ∧ (storeSum s sum).resetIn = s.resetIn := by
    intro sum; unfold storeSum; split <;> simp
  cases i <;> cases h
  case jmp => exact hbranch _ _ (.inr rfl)
  case jie => split <;> first | exact hbranch _ _ (.inl rfl) | simp
  case jig => split <;> first | exact hbranch _ _ (.inl rfl) | simp
  case calAdd => exact hsum _
  case calInc => exact hsum _
  case calGeti => obtain ⟨_, e⟩ | ⟨_, _, _, e⟩ | ⟨_, _, e⟩ := exchangeInput_cases s <;> rw [e] <;> simp
  case calRet => split <;> simp
  all_goals simp

/-! ### The step in each status -/

/-- With reset asserted the step is the reset (70_reset_and_hazards.md R230). -/
theorem step_of_reset (s : State) (hr : s.resetIn = true) : step s = .next (applyReset s) := by
  unfold step engineStep; rw [hr]; rfl

/-- A running core whose fetch finds nothing faults (20_memory.md R52). -/
theorem step_of_fetch_none (s : State) (hr : s.resetIn = false) (hs : s.status = .running)
    (hf : fetchByte s = none) : step s = .next (raiseFault .fetchOutOfRange s) := by
  unfold step engineStep stepByStatus runFetched
  simp [hr, hs, hf]

/-- A running core that fetches a byte executes what it decodes to; at the halt byte that is EXIT (30_encoding.md R80,
R77). -/
theorem step_of_fetch_some (s : State) (b : Byte) (hr : s.resetIn = false) (hs : s.status = .running)
    (hf : fetchByte s = some b) : step s = exec (decodeByteWith s.params.syscallMap b) s := by
  unfold step engineStep stepByStatus runFetched
  simp only [hr, hs, hf, Bool.false_eq_true, if_false]
  split
  · rename_i hb; subst hb; rfl
  · rfl

/-- A waiting core exchanges with the host (42_syscalls.md R162). -/
theorem step_of_waiting (s : State) (hr : s.resetIn = false) (hs : s.status = .awaitingInput) :
    step s = .next (exchangeInput s) := by
  unfold step engineStep stepByStatus
  simp [hr, hs]

/-- A halted core has no step (30_encoding.md R80). -/
theorem step_of_halted (s : State) (hr : s.resetIn = false) (hs : s.status = .halted) :
    step s = .fault .coreHalted := by
  unfold step engineStep stepByStatus
  simp [hr, hs]

/-- A faulted core has no step (60_exceptions.md R200). -/
theorem step_of_faulted (s : State) (r : FaultReason) (hr : s.resetIn = false) (hs : s.status = .faulted r) :
    step s = .fault (.coreFaulted r) := by
  unfold step engineStep stepByStatus
  simp [hr, hs]

/-- Everything the step can do (30_encoding.md R80, 10_state.md R32, 70_reset_and_hazards.md R230). -/
theorem step_cases (s t : State) (h : step s = .next t) :
    (s.resetIn = true ∧ t = applyReset s) ∨
    (s.resetIn = false ∧ s.status = .running ∧ fetchByte s = none ∧ t = raiseFault .fetchOutOfRange s) ∨
    (s.resetIn = false ∧ s.status = .running ∧ fetchByte s = some Config.haltByte ∧ t = haltCore s) ∨
    (∃ b, s.resetIn = false ∧ s.status = .running ∧ fetchByte s = some b ∧ b ≠ Config.haltByte ∧
      exec (decodeByteWith s.params.syscallMap b) s = .next t) ∨
    (s.resetIn = false ∧ s.status = .awaitingInput ∧ t = exchangeInput s) := by
  unfold step engineStep at h
  cases hr : s.resetIn with
  | true => rw [hr] at h; cases h; exact .inl ⟨rfl, rfl⟩
  | false =>
    rw [hr] at h
    simp only [Bool.false_eq_true, if_false] at h
    unfold stepByStatus at h
    cases hs : s.status with
    | running =>
      rw [hs] at h
      simp only [] at h
      unfold runFetched at h
      cases hf : fetchByte s with
      | none => rw [hf] at h; cases h; exact .inr (.inl ⟨rfl, rfl, rfl, rfl⟩)
      | some b =>
        rw [hf] at h
        simp only [] at h
        split at h
        · rename_i hb; subst hb; cases h
          exact .inr (.inr (.inl ⟨rfl, rfl, rfl, rfl⟩))
        · rename_i hb
          exact .inr (.inr (.inr (.inl ⟨b, rfl, rfl, rfl, hb, h⟩)))
    | awaitingInput => rw [hs] at h; cases h; exact .inr (.inr (.inr (.inr ⟨rfl, rfl, rfl⟩)))
    | halted => rw [hs] at h; cases h
    | faulted r => rw [hs] at h; cases h

end Sys2Proof.Machine
end

