-- ==== Sys2Proof/Laws/Run.lean ====
section
/-! SUPPORT. Runs of many steps, one step at a time. -/

namespace Sys2Proof.Machine

@[simp] theorem runFor_zero (s : State) : runFor 0 s = .next s := rfl

/-- A run's first step, where it answers a next state. -/
theorem runFor_succ_of_next (k : Nat) (s t : State) (h : step s = .next t) : runFor (k + 1) s = runFor k t := by
  have hs : Sys2Proof.core.step s = .next t := h
  simp only [runFor, Host.Core.run, hs]
  rfl

/-- A run that answers a next state after `k + 1` steps took a first step. -/
theorem step_of_runFor_succ (k : Nat) (s u : State) (h : runFor (k + 1) s = .next u) :
    ∃ t, step s = .next t ∧ runFor k t = .next u := by
  cases hs : step s with
  | next t => exact ⟨t, rfl, by rw [← runFor_succ_of_next k s t hs]; exact h⟩
  | fault r =>
    have hc : Sys2Proof.core.step s = .fault r := hs
    simp only [runFor, Host.Core.run, hc] at h
    cases h
  | refused r =>
    have hc : Sys2Proof.core.step s = .refused r := hs
    simp only [runFor, Host.Core.run, hc] at h
    cases h

/-- What every step keeps, every run keeps. -/
theorem runFor_keeps (P : State → Prop) (hstep : ∀ s t, P s → step s = .next t → P t) (k : Nat) :
    ∀ s t, P s → runFor k s = .next t → P t := by
  induction k with
  | zero => intro s t hs h; cases h; exact hs
  | succ k ih =>
    intro s t hs h
    obtain ⟨u, hu, hr⟩ := step_of_runFor_succ k s t h
    exact ih u t (hstep s u hs hu) hr

end Sys2Proof.Machine
end

