-- ==== Sys2Proof/Tests/Slice0.lean ====
section
/-! SUPPORT. The model's own tests, each with the row of 95_test_vectors.md or the rule its expected result comes from,
and for every statement with hypotheses a concrete state and operands that meet them. -/

namespace Sys2Proof.Tests
open Sys2Proof Sys2Proof.Machine

/-! ### Helpers -/

/-- A reset state with some registers, the DMRs and `pc` set. -/
def st (xs : List (Reg × Nat)) (d0 d1 : Nat) (pc : Nat) : State :=
  xs.foldl (fun s p => { s with x := s.x.set p.1 p.2 }) { State.reset with d := #v[d0, d1], pc := pc }

/-- A state as launched with an image. -/
def im (bytes : List Byte) : State := { State.reset with image := Memory.ofBytes bytes }

/-- A state as launched with an image, with registers and addresses of other widths. -/
def wide (regBits pcBits : Nat) (bytes : List Byte) : State :=
  { im bytes with params := { Params.default with regBits := regBits, pcBits := pcBits } }

/-- What a reader of the next state sees, where there is one. -/
def after {α : Type} (r : Result) (f : State → α) : Option α :=
  match r with
  | .next t => some (f t)
  | .fault _ => none
  | .refused _ => none

/-- What a reader sees after the instruction of a byte. -/
def run1 {α : Type} (b : Byte) (s : State) (f : State → α) : Option α := after (exec (decodeByte b) s) f

/-! ### WellFormed: an ill-formed term for each check -/

theorem test_wf_refuses_jmp_high : (Instr.jmp 16).wf = false := by decide
theorem test_wf_refuses_jmp_low : (Instr.jmp (-16)).wf = false := by decide
theorem test_wf_refuses_jie_high : (Instr.jie 16).wf = false := by decide
theorem test_wf_refuses_jie_low : (Instr.jie (-16)).wf = false := by decide
theorem test_wf_refuses_jig_high : (Instr.jig 16).wf = false := by decide
theorem test_wf_refuses_jig_low : (Instr.jig (-16)).wf = false := by decide
theorem test_wf_accepts_ends : (Instr.jmp 15).wf = true ∧ (Instr.jig (-15)).wf = true := by decide
theorem test_map_wf : SyscallMap.default.wf = true := by decide
/-- A map that gives EXIT another code is refused: the source fixes code 0 (30_encoding.md R75). -/
theorem test_map_refuses_moved_exit :
    SyscallMap.wf #v[.sub, .add, .exit, .and, .or, .xor, .not, .inc, .dec, .pc, .ret, .geti, .puti] = false := by decide
/-- A map that uses a name twice is refused. -/
theorem test_map_refuses_twice :
    SyscallMap.wf #v[.exit, .add, .sub, .sub, .or, .xor, .not, .inc, .dec, .pc, .ret, .geti, .puti] = false := by decide
/-- A map with other codes for SUB and AND is one the parameter allows (D4). -/
theorem test_map_allows_another :
    SyscallMap.wf #v[.exit, .add, .and, .sub, .or, .xor, .not, .inc, .dec, .pc, .ret, .geti, .puti] = true := by decide

/-! ### Decode: words written out from 30_encoding.md R71, R72, R75 -/

theorem test_decode_set : decodeByte 0b00011111#8 = .set 1 15#4 := by decide
theorem test_decode_mov : decodeByte 0b00101100#8 = .mov 0 12 := by decide
theorem test_decode_get : decodeByte 0b01011101#8 = .get 1 13 := by decide
theorem test_decode_cmp : decodeByte 0b01110010#8 = .cmp 1 2 := by decide
theorem test_decode_jmp : decodeByte 0b10011111#8 = .jmp (-15) ∧ decodeByte 0b10000011#8 = .jmp 3 := by decide
theorem test_decode_jie : decodeByte 0b10110101#8 = .jie (-5) ∧ decodeByte 0b10100100#8 = .jie 4 := by decide
theorem test_decode_jig : decodeByte 0b11011010#8 = .jig (-10) ∧ decodeByte 0b11000010#8 = .jig 2 := by decide
theorem test_decode_minus_zero :
    decodeByte 0x90#8 = .jmp 0 ∧ decodeByte 0xB0#8 = .jie 0 ∧ decodeByte 0xD0#8 = .jig 0 := by decide
theorem test_decode_calExit : decodeByte 0b11100000#8 = .calExit := by decide
theorem test_decode_calAdd : decodeByte 0b11100001#8 = .calAdd := by decide
theorem test_decode_calSub : decodeByte 0b11100010#8 = .calSub := by decide
theorem test_decode_calAnd : decodeByte 0b11100011#8 = .calAnd := by decide
theorem test_decode_calOr : decodeByte 0b11100100#8 = .calOr := by decide
theorem test_decode_calXor : decodeByte 0b11100101#8 = .calXor := by decide
theorem test_decode_calNot : decodeByte 0b11100110#8 = .calNot := by decide
theorem test_decode_calInc : decodeByte 0b11100111#8 = .calInc := by decide
theorem test_decode_calDec : decodeByte 0b11101000#8 = .calDec := by decide
theorem test_decode_calPc : decodeByte 0b11101001#8 = .calPc := by decide
theorem test_decode_calRet : decodeByte 0b11101010#8 = .calRet := by decide
theorem test_decode_calGeti : decodeByte 0b11101011#8 = .calGeti := by decide
theorem test_decode_calPuti : decodeByte 0b11101100#8 = .calPuti := by decide
theorem test_decode_calReserved13 : decodeByte 0b11101101#8 = .calReserved13 := by decide
theorem test_decode_calReserved14 :
    decodeByte 0b11101110#8 = .calReserved14 0#1 ∧ decodeByte 0b11101111#8 = .calReserved14 1#1 := by decide
theorem test_decode_calReserved16 :
    decodeByte 0b11110000#8 = .calReserved16 0#4 ∧ decodeByte 0b11111111#8 = .calReserved16 15#4 := by decide
theorem test_decode_empty : decode [] = .error .noByte := by decide
/-- Under another map the same byte is another call; 0xE0 halts under every map (R77). -/
theorem test_decode_another_map :
    decodeByteWith #v[.exit, .add, .and, .sub, .or, .xor, .not, .inc, .dec, .pc, .ret, .geti, .puti] 0xE2#8 = .calAnd ∧
    decodeByteWith #v[.add, .exit, .and, .sub, .or, .xor, .not, .inc, .dec, .pc, .ret, .geti, .puti] 0xE0#8 = .calExit := by
  decide
/-- The displacement table of section 1.1, at its ends and around 0. -/
theorem test_encode_displacements :
    encode (.jmp (-15)) = [0x9F#8] ∧ encode (.jmp (-1)) = [0x91#8] ∧ encode (.jmp 0) = [0x80#8] ∧
    encode (.jmp 15) = [0x8F#8] ∧ encode (.jie (-5)) = [0xB5#8] ∧ encode (.jig 2) = [0xC2#8] := by decide
theorem test_encode_others :
    encode (.set 1 3#4) = [0x13#8] ∧ encode (.mov 0 12) = [0x2C#8] ∧ encode (.get 1 11) = [0x5B#8] ∧
    encode (.cmp 0 0) = [0x60#8] ∧ encode .calPuti = [0xEC#8] ∧ encode (.calReserved14 1#1) = [0xEF#8] := by decide
theorem test_table_words :
    decodeTableWord 8 0x13 = some (.set 1 3#4) ∧ decodeTableWord 8 0xF0 = some (.calReserved16 0#4) := by decide

/-! ### One step of each instruction (95_test_vectors.md sections 2.1 to 2.3) -/

theorem test_set_M3 : run1 0x1F#8 (st [] 0 9 4) (fun t => (t.d, t.pc)) = some (#v[0, 15], 5) := by decide
theorem test_mov_M5 : run1 0x3F#8 (st [] 0 200 0) (fun t => (readX t 15, t.pc)) = some (200, 1) := by decide
theorem test_mov_R0_M6 : run1 0x20#8 (st [] 7 0 0) (fun t => (readX t 0, readD t 0, t.pc)) = some (0, 7, 1) := by
  decide
theorem test_get_M9 : run1 0x4B#8 (st [(11, 8)] 0 0 0) (fun t => (t.d, t.pc)) = some (#v[8, 0], 1) := by decide
theorem test_get_R0_M10 : run1 0x50#8 (st [] 0 5 0) (fun t => readD t 1) = some 0 := by decide
theorem test_cmp_M14 : run1 0x60#8 (st [] 255 0 0) (fun t => (readX t 14, readX t 15)) = some (1, 0) := by decide
theorem test_cmp_own_flag_M17 :
    run1 0x7F#8 (st [(15, 3)] 0 0 0) (fun t => (readX t 14, readX t 15)) = some (0, 1) := by decide
theorem test_jmp_B2 : run1 0x9F#8 (st [] 0 0 20) (fun t => (readX t 13, t.pc)) = some (20, 5) := by decide
theorem test_jmp_negative_B3 : run1 0x9F#8 (st [(13, 7)] 0 0 10) (fun t => (readX t 13, t.pc, t.status)) =
    some (7, 10, .faulted .branchTargetNegative) := by decide
theorem test_jie_B18 : run1 0xA1#8 (st [(13, 9)] 0 0 5) (fun t => (readX t 13, t.pc)) = some (9, 6) := by decide
theorem test_jie_falls_B10 : run1 0xA3#8 (st [(14, 2)] 0 0 4) (fun t => t.pc) = some 5 := by decide
theorem test_jig_B17 : run1 0xDA#8 (st [(14, 1)] 0 0 14) (fun t => t.pc) = some 4 := by decide
theorem test_jig_falls_B15 : run1 0xC2#8 (st [(14, 1), (15, 1)] 0 0 0) (fun t => t.pc) = some 1 := by decide
theorem test_exit_C1 : run1 0xE0#8 (st [] 0 0 6) (fun t => (t.status, t.pc)) = some (.halted, 6) := by decide
theorem test_add_C3 : run1 0xE1#8 (st [] 200 100 0) (fun t => (readX t 11, t.pc)) = some (44, 1) := by decide
/-- C31, the alternative parameter. -/
theorem test_add_fault_C31 :
    run1 0xE1#8 { st [] 200 100 0 with params := { Params.default with addOverflow := .fault } }
      (fun t => (readX t 11, t.pc, t.status)) = some (0, 0, .faulted .arithOverflow) := by decide
theorem test_sub_C6 : run1 0xE2#8 (st [] 3 5 0) (fun t => readX t 11) = some 254 := by decide
theorem test_and_C8 : run1 0xE3#8 (st [] 12 10 0) (fun t => readX t 11) = some 8 := by decide
theorem test_or_C9 : run1 0xE4#8 (st [] 12 10 0) (fun t => readX t 11) = some 14 := by decide
theorem test_xor_C10 : run1 0xE5#8 (st [] 12 10 0) (fun t => readX t 11) = some 6 := by decide
theorem test_not_C13 : run1 0xE6#8 (st [] 5 99 0) (fun t => readX t 11) = some 250 := by decide
theorem test_inc_C15 : run1 0xE7#8 (st [] 255 0 0) (fun t => (readX t 11, readD t 0)) = some (0, 255) := by decide
theorem test_dec_C17 : run1 0xE8#8 (st [] 0 0 0) (fun t => readX t 11) = some 255 := by decide
theorem test_pc_C18 : run1 0xE9#8 (st [] 0 0 1) (fun t => (readX t 13, t.pc)) = some (1, 2) := by decide
theorem test_ret_C21 : run1 0xEA#8 (st [(13, 40)] 0 0 3) (fun t => (readX t 13, t.pc)) = some (40, 41) := by decide
theorem test_geti_C22 : run1 0xEB#8 (hostLine (st [] 0 0 0) (some "42".toList))
    (fun t => (readX t 11, t.pc, t.status)) = some (42, 1, .running) := by decide
theorem test_geti_C25 : run1 0xEB#8 (hostLine (st [] 0 0 0) (some "256".toList))
    (fun t => (readX t 11, t.pc, t.status)) = some (0, 0, .faulted .inputParse) := by decide
theorem test_puti_C27 : run1 0xEC#8 (st [(12, 7)] 0 0 0) (fun t => (t.out, t.pc)) = some ([7], 1) := by decide
theorem test_reserved13_C29 : run1 0xED#8 (st [] 0 0 0) (fun t => (t.status, t.pc)) =
    some (.faulted .undefinedSyscall, 0) := by decide
theorem test_reserved14 : run1 0xEF#8 (st [] 0 0 2) (fun t => (t.status, t.pc)) =
    some (.faulted .undefinedSyscall, 2) := by decide
theorem test_reserved16_C30 : run1 0xFF#8 (st [] 0 0 0) (fun t => (t.status, t.pc)) =
    some (.faulted .undefinedSyscall, 0) := by decide

/-! ### The widths as parameters (00_scope.md R4; `trunc_W`, NOT and the GETI range of 42_syscalls.md at `W = 16`) -/

theorem test_wide_add_and_not :
    run1 0xE1#8 { wide 16 12 [] with d := #v[200, 100] } (fun t => readX t 11) = some 300 ∧
    run1 0xE6#8 { wide 16 12 [] with d := #v[5, 0] } (fun t => readX t 11) = some 65530 := by decide
theorem test_wide_dec_and_geti :
    run1 0xE8#8 (wide 16 12 []) (fun t => readX t 11) = some 65535 ∧
    run1 0xEB#8 (hostLine (wide 16 12 []) (some "256".toList)) (fun t => readX t 11) = some 256 := by decide
/-- `IMEM_SIZE` follows `PC_BITS`: 12 bits give 4096 addresses, 4 bits 16. -/
theorem test_imem_size_follows_pc_bits :
    (wide 16 12 []).params.imemSize = 4096 ∧
    launch (wide 4 4 []).params (List.replicate 17 0xE0#8) [] = none := by decide
/-- Registers too narrow for an address or for an immediate are refused. -/
theorem test_params_refused :
    (wide 8 9 []).params.wf = false ∧ (wide 3 3 []).params.wf = false ∧ (wide 4 4 []).params.wf = true := by decide

/-! ### Fetch, halt, waiting, reset (section 2.4, 10_state.md R32, 70_reset_and_hazards.md R230) -/

theorem test_fetch_F1 : after (step State.reset) (fun t => (t.status, t.pc)) =
    some (.faulted .fetchOutOfRange, 0) := by decide
theorem test_fetch_F2 : after (step { im [0x05#8] with pc := 1, d := #v[5, 0] }) (fun t => (t.status, t.pc, readD t 0)) =
    some (.faulted .fetchOutOfRange, 1, 5) := by decide
theorem test_halt_F3 : after (step (im [0xE0#8, 0x05#8])) (fun t => (t.status, t.pc, readD t 0)) =
    some (.halted, 0, 0) := by decide
theorem test_halted_has_no_step : step { im [0xE0#8] with status := .halted } = .fault .coreHalted := by rfl
theorem test_geti_waits : after (step (im [0xEB#8])) (fun t => (t.status, t.pc)) = some (.awaitingInput, 0) := by decide
theorem test_waiting_completes :
    after (step (hostAnswer { im [0xEB#8] with status := .awaitingInput } (.value 9)))
      (fun t => (readX t 11, t.pc, t.status, t.answers)) = some (9, 1, .running, [.value 9]) := by decide
theorem test_reset_during_wait :
    after (step (assertReset { im [0xEB#8] with status := .awaitingInput, pc := 3, out := [7] }))
      (fun t => (t.status, t.pc, t.out, t.pastOut)) = some (.running, 0, [], [7]) := by decide
theorem test_status_port : statusPort { State.reset with status := .faulted .inputParse, pc := 4 } = (.faulted 4, 4) := by
  decide
theorem test_observation_only_when_halted : observation State.reset = none ∧
    observation { State.reset with status := .halted, out := [8], pc := 3 } =
      some { final := { x := Vector.replicate 16 0, d := Vector.replicate 2 0, pc := 3 }, outputs := [8],
             answers := [] } := by decide
theorem test_fetch_word_at_reset : after (step (State.reset.withFetchWord 8 0x13)) (fun t => (readD t 1, t.pc)) =
    some (3, 1) := by decide

/-! ### Host text (C23 to C26, R163) -/

theorem test_lines_answered :
    answerOfLine 8 (some "007".toList) = .value 7 ∧ answerOfLine 8 (some " 255\r\n".toList) = .value 255 := by decide
theorem test_lines_refused :
    answerOfLine 8 (some "abc".toList) = .error ∧ answerOfLine 8 (some []) = .error ∧
    answerOfLine 8 (some "-1".toList) = .error ∧ answerOfLine 8 (some "+5".toList) = .error ∧
    answerOfLine 8 none = .error := by decide
theorem test_output_runs_together : renderOutput [2, 1, 0] = "210".toList := by decide

/-! ### Assembler and listing (sections 1, 2.5 and 3) -/

theorem test_asm_S4_S10 :
    assemble "set #0 5\nset #1 3\ncal 1" = .ok [0x05#8, 0x13#8, 0xE1#8, 0xE0#8] ∧
    assemble "  set #0 5\n\n set   #1 3 \ncal 1\n" = .ok [0x05#8, 0x13#8, 0xE1#8, 0xE0#8] := by decide
theorem test_asm_S5_S8 :
    assemble "top:\nset #0 1\njmp top" = .ok [0x01#8, 0x91#8, 0xE0#8] ∧
    assemble "mov #0 $0" = .error { kind := .protectedRegisterError, index := 1 } := by decide
theorem test_asm_S7 :
    collectLabels 0 0 [] ["a:".toList, "set #0 1".toList, "b:".toList, "c:".toList, "set #0 2".toList] =
      .ok [("a".toList, 0), ("b".toList, 1), ("c".toList, 1)] := by decide
theorem test_asm_A3_to_A6 :
    assemble "set #2 1" = .error { kind := .unknownOperandError, index := 1 } ∧
    assemble "add #0 1" = .error { kind := .unknownOperationError, index := 1 } ∧
    assemble "set #0" = .error { kind := .unknownOperationError, index := 1 } ∧
    assemble "cal 13" = .error { kind := .unknownSyscallError, index := 1 } := by decide
theorem test_asm_A7_to_A11 :
    assemble "jmp nowhere" = .error { kind := .unknownOperandError, index := 1 } ∧
    assemble "halt" = .error { kind := .formatError, index := 1 } ∧
    assemble "set #0 1 2" = .error { kind := .formatError, index := 1 } ∧
    assemble "set #0 16" = .error { kind := .unknownOperandError, index := 1 } ∧
    assemble "get #0 $16" = .error { kind := .unknownOperandError, index := 1 } := by decide
theorem test_asm_A12 :
    assembleBranch [("x".toList, 0)] 16 4 "x".toList = .error .displacementRangeError := by decide
theorem test_asm_A13_to_A16 :
    assemble "cal 0" = .ok [0xE0#8, 0xE0#8] ∧ assemble "get #0 r5" = .ok [0x45#8, 0xE0#8] ∧
    assemble "a:\na:" = .error { kind := .duplicateLabelError, index := 2 } ∧
    assemble "set #0 1 ; comment" = .error { kind := .formatError, index := 1 } := by decide
theorem test_listing :
    disassemble 0x13#8 = "set #1 3" ∧ disassemble 0x2C#8 = "mov #0 $12" ∧ disassemble 0x90#8 = "jmp .-0" ∧
    disassemble 0xE1#8 = "cal 1 ; ADD" ∧ disassemble 0xE0#8 = "cal 0 ; EXIT" := by decide

/-! ### Witnesses: states and operands that meet the statements' hypotheses -/

theorem witness_DecodeAndEncodeAgree :
    SyscallMap.default.wf = true ∧ (Instr.jmp (-15)).wf = true ∧ (Instr.jig 15).wf = true ∧
    encodeByte (decodeByte 0x91#8) = 0x91#8 ∧ (encM 3 1 15).toNat = 127 ∧ (encB 6 (-15)).toNat = 223 ∧
    (encC 31).toNat = 255 := by decide
/-- Each clause at the ends of its range. -/
theorem witness_EveryByteDecodesToItsRow :
    SyscallMap.default.wf = true ∧
    decodeByte 0x00#8 = .set 0 0#4 ∧ decodeByte 0x1F#8 = .set 1 15#4 ∧
    decodeByte 0x20#8 = .mov 0 0 ∧ decodeByte 0x3F#8 = .mov 1 15 ∧
    decodeByte 0x40#8 = .get 0 0 ∧ decodeByte 0x5F#8 = .get 1 15 ∧
    decodeByte 0x60#8 = .cmp 0 0 ∧ decodeByte 0x7F#8 = .cmp 1 15 ∧
    decodeByte 0x80#8 = .jmp 0 ∧ decodeByte 0x8F#8 = .jmp 15 ∧
    decodeByte 0x90#8 = .jmp 0 ∧ decodeByte 0x9F#8 = .jmp (-15) ∧
    decodeByte 0xA0#8 = .jie 0 ∧ decodeByte 0xAF#8 = .jie 15 ∧
    decodeByte 0xB0#8 = .jie 0 ∧ decodeByte 0xBF#8 = .jie (-15) ∧
    decodeByte 0xC0#8 = .jig 0 ∧ decodeByte 0xCF#8 = .jig 15 ∧
    decodeByte 0xD0#8 = .jig 0 ∧ decodeByte 0xDF#8 = .jig (-15) ∧
    decodeByte 0xE1#8 = .calAdd ∧ decodeByte 0xEC#8 = .calPuti ∧
    decodeByte 0xED#8 = .calReserved13 ∧ decodeByte 0xEE#8 = .calReserved14 0#1 ∧
    decodeByte 0xEF#8 = .calReserved14 1#1 ∧ decodeByte 0xF0#8 = .calReserved16 0#4 ∧
    decodeByte 0xFF#8 = .calReserved16 15#4 := by decide
theorem witness_StepRunsTheDecodedInstruction :
    (im [0x13#8]).resetIn = false ∧ (im [0x13#8]).status = .running ∧ fetchByte (im [0x13#8]) = some 0x13#8 ∧
    decodeByteWith (im [0x13#8]).params.syscallMap 0x13#8 = .set 1 3#4 := by decide
theorem witness_FetchFaultsOutsideTheImage :
    (Memory.size (im [0x13#8]).image ≤ ({ im [0x13#8] with pc := 1 } : State).pc) ∧
    Memory.wf (im [0x13#8]).params.imemSize (im [0x13#8]).image = true ∧ (im [0x13#8]).pc < Memory.size (im [0x13#8]).image := by decide
theorem witness_ExitHaltsInPlace :
    fetchByte (im [0xE0#8]) = some 0xE0#8 ∧ (im [0xE0#8]).resetIn = false ∧ (im [0xE0#8]).status = .running ∧
    ({ im [0xE0#8] with status := .halted } : State).status = .halted := by decide
theorem witness_PlacedWordIsTheOneThatRuns :
    Memory.wf State.reset.params.imemSize State.reset.image = true ∧ State.reset.pc < State.reset.params.imemSize ∧
    Memory.wf (im [0x13#8]).params.imemSize (im [0x13#8]).image = true ∧
    ({ im [0x13#8] with pc := 255 } : State).pc < (im [0x13#8]).params.imemSize := by decide
theorem witness_MovCopiesTheDmr : (1 : Reg) ≠ 0 ∧ (15 : Reg) ≠ 0 := by decide
theorem witness_GetCopiesTheRegister : readX (st [] 4 5 6) 0 = 0 := by decide
theorem witness_CmpSetsBothFlags :
    (st [(3, 3)] 5 0 0).x[3] < (st [(3, 3)] 5 0 0).d[0] ∧
    (st [(3, 7)] 2 0 0).d[0] < (st [(3, 7)] 2 0 0).x[3] ∧
    (st [(3, 4)] 4 0 0).d[0] = (st [(3, 4)] 4 0 0).x[3] ∧
    (readX (st [] 1 0 0) 0 = 0 ∧ after (exec (.cmp 0 0) (st [] 1 0 0)) (fun t => readX t 14) = some 1) := by decide
/-- Target 0 is the boundary of the fault, `pc = 255` that of the saved address. -/
theorem witness_JmpSavesItsAddressAndJumps :
    (0 ≤ ((st [] 0 0 1).pc : Int) + (-1)) ∧ (((st [] 0 0 1).pc : Int) + (-2) < 0) ∧
    ((st [] 0 0 255).pc < 2 ^ (st [] 0 0 255).params.regBits ∧ 0 ≤ ((st [] 0 0 255).pc : Int) + 15) ∧
    after (exec (.jmp 15) (st [] 0 0 255)) (fun t => (readX t 13, t.pc)) = some (255, 270) := by decide
theorem witness_JieJumpsIfEqual :
    (readX (st [] 0 0 1) 14 = 0 ∧ readX (st [] 0 0 1) 15 = 0 ∧ 0 ≤ ((st [] 0 0 1).pc : Int) + (-1)) ∧
    (((st [] 0 0 1).pc : Int) + (-2) < 0) ∧ readX (st [(14, 1)] 0 0 1) 14 ≠ 0 ∧
    readX (st [(15, 1)] 0 0 1) 15 ≠ 0 := by decide
theorem witness_JigJumpsIfGreater :
    (readX (st [(14, 1)] 0 0 1) 14 = 1 ∧ readX (st [(14, 1)] 0 0 1) 15 = 0 ∧
      0 ≤ ((st [(14, 1)] 0 0 1).pc : Int) + (-1)) ∧
    (((st [(14, 1)] 0 0 1).pc : Int) + (-2) < 0) ∧ readX (st [] 0 0 1) 14 ≠ 1 ∧
    readX (st [(14, 1), (15, 1)] 0 0 1) 15 ≠ 0 := by decide
theorem witness_ReturnResumesAfterTheCall :
    ∃ s t u : State, s.pc < 2 ^ s.params.regBits ∧ 0 ≤ (s.pc : Int) + 3 ∧ exec (.jmp 3) s = .next t ∧
      readX u 13 = readX t 13 ∧ u.params.retAdvance = true ∧ u.pc ≠ t.pc :=
  ⟨st [] 0 0 1, _, st [(13, 1)] 0 0 5, by decide, by decide, rfl, by decide, by decide, by decide⟩
theorem witness_AddStoresTheSum :
    ((st [] 200 100 0).params.addOverflow = .wrap) ∧ (readD (st [] 200 55 0) 0 + readD (st [] 200 55 0) 1 < 2 ^ (st [] 200 55 0).params.regBits) ∧
    (({ st [] 200 56 0 with params := { Params.default with addOverflow := .fault } } : State).params.addOverflow = .fault ∧
      2 ^ (st [] 200 56 0).params.regBits ≤ readD (st [] 200 56 0) 0 + readD (st [] 200 56 0) 1) := by decide
theorem witness_IncStoresTheSuccessor :
    (st [] 255 0 0).params.addOverflow = .wrap ∧ readD (st [] 254 0 0) 0 + 1 < 2 ^ (st [] 254 0 0).params.regBits ∧
    ({ st [] 255 0 0 with params := { Params.default with addOverflow := .fault } } : State).params.addOverflow = .fault ∧
    2 ^ (st [] 255 0 0).params.regBits ≤ readD (st [] 255 0 0) 0 + 1 := by decide
/-- The largest register value, and 0 beside 1. -/
theorem witness_NotAndDec :
    (readD (st [] 255 0 0) 0 < 2 ^ (st [] 255 0 0).params.regBits ∧ 7 < (st [] 255 0 0).params.regBits) ∧
    readD (st [] 0 0 0) 0 = 0 ∧
    (0 < readD (st [] 255 0 0) 0 ∧ 0 < readD (st [] 1 0 0) 0) := by decide
theorem witness_PcSavesItsOwnAddress :
    (st [] 0 0 255).pc < 2 ^ (st [] 0 0 255).params.regBits ∧ after (exec .calPc (st [] 0 0 255)) (fun t => readX t 13) = some 255 := by decide
theorem witness_RetContinuesAfterRThirteen : (st [(13, 1)] 0 0 5).params.retAdvance = true := by decide
theorem witness_RetWithoutAdvanceContinuesAtRThirteen :
    ({ st [(13, 1)] 0 0 5 with params := { Params.default with retAdvance := false } } : State).params.retAdvance = false := by
  decide
theorem witness_GetiTakesTheHostsAnswer :
    (hostAnswer State.reset (.value 9)).inbox = [.value 9] ∧ (hostAnswer State.reset .error).inbox = [.error] ∧
    State.reset.inbox = [] ∧
    (({ im [0xEB#8] with status := .awaitingInput } : State).status = .awaitingInput ∧ (im [0xEB#8]).inbox = [] ∧
      (im [0xEB#8]).resetIn = false) ∧
    trimText "  \n".toList = [] ∧ ('-' ∈ trimText "-1".toList ∧ isDigit '-' = false) ∧
    parseDecimal (trimText "255".toList) = some 255 ∧ parseDecimal (trimText "256".toList) = some 256 := by decide
theorem witness_GetiConsumesOneAnswer : (hostAnswer State.reset .error).inbox = .error :: [] := by decide
theorem witness_ReservedCodesFault :
    (im [0xED#8]).resetIn = false ∧ (im [0xED#8]).status = .running ∧ fetchByte (im [0xED#8]) = some 0xED#8 ∧
    0xED ≤ (0xED#8 : Byte).toNat := by decide
theorem witness_frames :
    (∃ t, exec (.set 0 1#4) (st [] 0 0 0) = .next t) ∧ (∃ t, exec (.mov 1 14) (st [] 0 7 0) = .next t) ∧
    (∃ t, exec (.get 0 3) (st [(3, 1)] 0 0 0) = .next t) ∧ (∃ t, exec (.cmp 1 2) (st [] 0 7 0) = .next t) ∧
    (∃ t, exec (.jmp 2) (st [] 0 0 0) = .next t) ∧ (∃ t, exec (.jie (-1)) (st [] 0 0 0) = .next t) ∧
    (∃ t, exec (.jig 2) (st [(14, 1)] 0 0 0) = .next t) ∧ (∃ t, exec .calAdd (st [] 1 2 0) = .next t) ∧
    (∃ t, exec .calInc (st [] 1 2 0) = .next t) ∧ (∃ t, exec .calPc (st [] 0 0 9) = .next t) ∧
    (∃ t, exec .calExit (st [] 0 0 9) = .next t) ∧ (∃ t, exec .calGeti (st [] 0 0 9) = .next t) ∧
    (∃ t, exec .calPuti (st [(12, 7)] 0 0 9) = .next t) :=
  ⟨⟨_, rfl⟩, ⟨_, rfl⟩, ⟨_, rfl⟩, ⟨_, rfl⟩, ⟨_, rfl⟩, ⟨_, rfl⟩, ⟨_, rfl⟩, ⟨_, rfl⟩, ⟨_, rfl⟩, ⟨_, rfl⟩, ⟨_, rfl⟩,
    ⟨_, rfl⟩, ⟨_, rfl⟩⟩
theorem witness_RegistersChangeOnlyAsTheWriteTableLists :
    ∃ t, exec (.cmp 0 3) (st [(3, 9)] 5 0 0) = .next t ∧ (3 : Reg) ∉ xWrites (.cmp 0 3) ∧
      (0 : Dmr) ∉ dWrites (.cmp 0 3) ∧ setsPc (.cmp 0 3) = false :=
  ⟨_, rfl, by decide, by decide, by decide⟩
theorem witness_RZeroNeverChanges : readX (im [0x3F#8]) 0 = 0 ∧ ∃ t, step (im [0x3F#8]) = .next t :=
  ⟨by decide, _, rfl⟩
theorem witness_NoStepChangesTheImage : ∃ t, step (im [0x13#8, 0xE0#8]) = .next t := ⟨_, rfl⟩
theorem witness_FaultingStepWritesNothing :
    (∃ t, step (im [0xF0#8]) = .next t ∧ t.status = .faulted .undefinedSyscall) ∧
    (({ im [0xF0#8] with status := .faulted .undefinedSyscall } : State).resetIn = false) ∧
    ((assertReset { im [0xF0#8] with status := .faulted .undefinedSyscall }).resetIn = true) :=
  ⟨⟨_, rfl, rfl⟩, rfl, rfl⟩
theorem witness_FaultsHappenExactlyForTheirCauses :
    (Memory.wf (im [0xF0#8]).params.imemSize (im [0xF0#8]).image = true ∧ (im [0xF0#8]).resetIn = false ∧ (im [0xF0#8]).status = .running ∧
      ∃ t, step (im [0xF0#8]) = .next t) ∧
    (∃ t, step (hostAnswer { im [0xEB#8] with status := .awaitingInput } .error) = .next t) :=
  ⟨⟨by decide, rfl, rfl, _, rfl⟩, _, rfl⟩
theorem witness_TerminalStatusesAreLeftOnlyByReset :
    (({ im [0xE0#8] with status := .halted } : State).ended = true) ∧
    (({ im [0xF0#8] with status := .faulted .undefinedSyscall } : State).ended = true) ∧
    (assertReset { im [0xE0#8] with status := .halted }).resetIn = true ∧
    (im [0xE0#8]).status = .running ∧ ∃ t, exec .calExit (im [0xE0#8]) = .next t :=
  ⟨rfl, rfl, rfl, rfl, _, rfl⟩
theorem witness_OnlyPutiWritesTheOutput : ∃ t, exec .calPuti (st [(12, 7)] 0 0 0) = .next t ∧ t.out = [7] :=
  ⟨_, rfl, by decide⟩
/-- Each form of the first clause, a cycle of a JMP and a JIE back to it, and a wait. -/
theorem witness_HangsRunForEver :
    (fetchByte (im [0x80#8]) = some 0x80#8 ∧ (im [0x80#8]).resetIn = false ∧ (im [0x80#8]).status = .running) ∧
    (fetchByte (im [0x90#8]) = some 0x90#8) ∧
    (fetchByte (im [0xA0#8]) = some 0xA0#8 ∧ fetchByte (im [0xB0#8]) = some 0xB0#8 ∧
      readX (im [0xA0#8]) 14 = 0 ∧ readX (im [0xA0#8]) 15 = 0) ∧
    (fetchByte (st [(14, 1)] 0 0 0) = none ∧
      fetchByte { st [(14, 1)] 0 0 0 with image := Memory.ofBytes [0xC0#8] } = some 0xC0#8 ∧
      fetchByte { st [(14, 1)] 0 0 0 with image := Memory.ofBytes [0xD0#8] } = some 0xD0#8 ∧
      readX (st [(14, 1)] 0 0 0) 14 = 1 ∧ readX (st [(14, 1)] 0 0 0) 15 = 0) ∧
    ((im [0x81#8, 0xB1#8]).pc ∈ [0, 1] ∧
      (∀ a ∈ [0, 1], ∃ (b : Byte) (disp : Int), imemPort (im [0x81#8, 0xB1#8]) a = some b ∧
        BranchTaken (im [0x81#8, 0xB1#8]) (decodeByteWith (im [0x81#8, 0xB1#8]).params.syscallMap b) disp ∧
        ∃ a' ∈ [0, 1], (a : Int) + disp = (a' : Int))) ∧
    (({ im [0xEB#8] with status := .awaitingInput } : State).inbox = [] ∧ (im [0xEB#8]).resetIn = false) := by
  refine ⟨by decide, by decide, by decide, by decide, ⟨by decide, ?_⟩, by decide⟩
  intro a ha
  simp only [List.mem_cons, List.not_mem_nil, or_false] at ha
  obtain rfl | rfl := ha
  · exact ⟨0x81#8, 1, by decide, .inl (by decide), 1, by decide, by decide⟩
  · exact ⟨0xB1#8, -1, by decide, .inr (.inl (by decide)), 0, by decide, by decide⟩
theorem witness_ResetRestoresTheResetValues : (assertReset (im [0x13#8])).resetIn = true := rfl
/-- The bound of a launch at 256 and 257 bytes. -/
theorem witness_LaunchLoadsTheImage :
    Params.default.imemSize < (List.replicate 257 0x00#8).length ∧
    (List.replicate 256 0x00#8).length ≤ Params.default.imemSize ∧
    Params.default.wf = true ∧ ∀ a ∈ [Answer.value 255, Answer.error], a.fits Params.default.regBits = true :=
  ⟨by rw [List.length_replicate]; decide, by rw [List.length_replicate]; decide, by decide, by decide⟩
theorem witness_InvariantIsKeptByEveryStep :
    State.Inv { im [0xE0#8] with status := .halted, resetIn := true } ∧
      ∃ t, step { im [0xE0#8] with status := .halted, resetIn := true } = .next t :=
  ⟨⟨by decide, ⟨by decide, by decide, by decide, by decide⟩, by decide, by decide, by decide, rfl⟩, _, rfl⟩
/-- The largest register value, the largest answer, and the narrowest registers. -/
theorem witness_StepsKeepEveryValueInRange :
    (4 ≤ ({ im [0xE7#8] with d := #v[255, 0], inbox := [.value 255] } : State).params.regBits ∧
      WordsInRange { im [0xE7#8] with d := #v[255, 0], inbox := [.value 255] } ∧
      ∃ t, step { im [0xE7#8] with d := #v[255, 0], inbox := [.value 255] } = .next t) ∧
    (4 ≤ (wide 4 4 [0x0F#8]).params.regBits ∧ WordsInRange (wide 4 4 [0x0F#8]) ∧
      ∃ t, step (wide 4 4 [0x0F#8]) = .next t ∧ readD t 0 = 15) :=
  ⟨⟨by decide, ⟨by decide, by decide, by decide, by decide⟩, _, rfl⟩,
    ⟨by decide, ⟨by decide, by decide, by decide, by decide⟩, _, rfl, by decide⟩⟩
theorem witness_EveryReachedStateMeetsTheInvariant :
    Params.default.wf = true ∧ ∃ s t, launch Params.default [0x13#8, 0xE0#8] [] = some s ∧ runFor 2 s = .next t ∧
      t.status = .halted :=
  ⟨by decide, _, _, rfl, rfl, rfl⟩
/-- The premise about the answers, at the bound of the range. -/
theorem witness_answers_fit : ∀ a ∈ [Answer.value 255, Answer.error], a.fits Params.default.regBits = true := by decide
theorem witness_AssembledImages :
    ∃ image, assembleText "top:\nset #0 1\njmp top".toList = .ok image ∧ 0x91#8 ∈ image :=
  ⟨[0x01#8, 0x91#8, 0xE0#8], by decide, by decide⟩
theorem witness_AssembledBranchReachesItsLabel :
    assembleText "top:\nset #0 1\njmp top".toList = .ok [0x01#8, 0x91#8, 0xE0#8] ∧
    (instructionLines "top:\nset #0 1\njmp top".toList)[1]? = some "jmp top".toList ∧
    tokens "jmp top".toList = ["jmp".toList, "top".toList] ∧ branchOp "jmp".toList = some 4 := by decide
/-- A label 15 back, the boundary of the range (30_encoding.md R90). -/
theorem test_branch_15_back :
    assembleBranch [("top".toList, 1)] 16 4 "top".toList = .ok 0x9F#8 := by decide
theorem witness_LabelsNameTheNextInstruction :
    isLabelLine "b:".toList = true ∧
    collectLabels 0 0 [] (["a:".toList, "set #0 1".toList] ++ "b:".toList :: ["cal 1".toList]) =
      .ok [("a".toList, 0), ("b".toList, 1)] ∧
    labelName "a:".toList = labelName "a:".toList := by decide

end Sys2Proof.Tests
end

/-! PROOFS: the scope's statements (00_scope.md). Rules for the range of values, R0, `pc` and the status under each
operation of the state, from which the invariant follows. -/

/-! ### What the decoder's answers say about the byte -/

namespace Sys2Proof

/-- The three rows of the reserved codes 13 to 31 (42_syscalls.md R164). -/
def Instr.isReserved : Instr → Bool
  | .calReserved13 => true
  | .calReserved14 _ => true
  | .calReserved16 _ => true
  | _ => false

theorem isReserved_toInstr (n : Syscall) : n.toInstr.isReserved = false := by cases n <;> rfl

theorem toInstr_eq_calExit_iff (n : Syscall) : n.toInstr = .calExit ↔ n = .exit := by
  cases n <;> simp [Syscall.toInstr]

theorem opcode_toInstr (n : Syscall) : n.toInstr.opcode = 7 := by cases n <;> rfl

theorem opcode_of_isReserved : ∀ {i : Instr}, i.isReserved = true → i.opcode = 7
  | .calReserved13, _ => rfl
  | .calReserved14 _, _ => rfl
  | .calReserved16 _, _ => rfl

theorem decodeCall_of_lt (m : SyscallMap) (code : BitVec 5) (h : code.toNat < 13) :
    decodeCall m code = (m[code.toNat]).toInstr := by
  simp [decodeCall, h]

theorem isReserved_decodeCall_of_le (m : SyscallMap) (code : BitVec 5) (h : 13 ≤ code.toNat) :
    (decodeCall m code).isReserved = true := by
  unfold decodeCall
  rw [dif_neg (by omega)]
  split
  · rfl
  · split <;> rfl

/-- Format C answers a reserved row exactly for the codes 13 to 31 (30_encoding.md R76). -/
theorem isReserved_decodeCall_iff (m : SyscallMap) (code : BitVec 5) :
    (decodeCall m code).isReserved = true ↔ 13 ≤ code.toNat := by
  refine ⟨fun h => ?_, isReserved_decodeCall_of_le m code⟩
  by_contra hlt
  rw [decodeCall_of_lt m code (by omega), isReserved_toInstr] at h
  cases h

theorem opcode_decodeCall (m : SyscallMap) (code : BitVec 5) : (decodeCall m code).opcode = 7 := by
  by_cases h : code.toNat < 13
  · rw [decodeCall_of_lt m code h, opcode_toInstr]
  · exact opcode_of_isReserved (isReserved_decodeCall_of_le m code (by omega))

/-- In a map the source allows, EXIT has code 0 and no other (30_encoding.md R75). -/
theorem code_eq_zero_of_exit {m : SyscallMap} (hm : m.wf = true) {k : Nat} (hk : k < 13) (h : m[k] = .exit) :
    k = 0 := by
  simp only [SyscallMap.wf, Bool.and_eq_true, beq_iff_eq, decide_eq_true_eq] at hm
  obtain ⟨⟨⟨hzero, -⟩, hnodup⟩, -⟩ := hm
  have hlen : m.toList.length = 13 := m.length_toList
  refine (hnodup.getElem_inj_iff (hi := by omega) (hj := by omega)).mp ?_
  simpa [Vector.getElem_toList] using h.trans hzero.symm

theorem code_eq_zero_of_decodeCall_eq_calExit {m : SyscallMap} (hm : m.wf = true) {code : BitVec 5}
    (h : decodeCall m code = .calExit) : code.toNat = 0 := by
  have hlt : code.toNat < 13 := by
    by_contra hge
    have hres := isReserved_decodeCall_of_le m code (by omega)
    rw [h] at hres
    cases hres
  rw [decodeCall_of_lt m code hlt, toInstr_eq_calExit_iff] at h
  exact code_eq_zero_of_exit hm hlt h

/-- The decoder answers an instruction of the byte's opcode (30_encoding.md R72). -/
theorem opcode_decodeByteWith (m : SyscallMap) (b : Byte) :
    (decodeByteWith m b).opcode = (opField b).toNat := by
  unfold decodeByteWith
  split
  · next hb => subst hb; rfl
  · split
    case h_8 =>
      have hlt := (opField b).isLt
      rw [opcode_decodeCall]
      simp only [imp_false] at *
      omega
    all_goals next h => rw [h]; rfl

theorem decodeByteWith_of_opField {m : SyscallMap} {b : Byte} (hb : b ≠ Config.haltByte)
    (h : (opField b).toNat = 7) : decodeByteWith m b = decodeCall m (codeField b) := by
  simp [decodeByteWith, hb, h]

theorem toNat_of_opField {b : Byte} (h : (opField b).toNat = 7) : b.toNat = 224 + (codeField b).toNat := by
  rw [opField_toNat] at h
  rw [codeField_toNat]
  omega

/-- Only the halt byte is EXIT, under every map the source allows (30_encoding.md R75, R77). -/
theorem eq_haltByte_of_decodeByteWith_eq_calExit {m : SyscallMap} (hm : m.wf = true) {b : Byte}
    (h : decodeByteWith m b = .calExit) : b = Config.haltByte := by
  by_contra hb
  have hop : (opField b).toNat = 7 := by rw [← opcode_decodeByteWith m b, h]; rfl
  rw [decodeByteWith_of_opField hb hop] at h
  have hnat := toNat_of_opField hop
  rw [code_eq_zero_of_decodeCall_eq_calExit hm h] at hnat
  exact hb (BitVec.eq_of_toNat_eq hnat)

/-- A byte that decodes to a reserved row is 0xED or above (30_encoding.md R76). -/
theorem le_toNat_of_isReserved {m : SyscallMap} {b : Byte} (h : (decodeByteWith m b).isReserved = true) :
    0xED ≤ b.toNat := by
  have hb : b ≠ Config.haltByte := by rintro rfl; cases h
  have hop : (opField b).toNat = 7 := by rw [← opcode_decodeByteWith m b, opcode_of_isReserved h]
  rw [decodeByteWith_of_opField hb hop, isReserved_decodeCall_iff] at h
  rw [toNat_of_opField hop]
  omega

end Sys2Proof

namespace Sys2Proof.Machine

/-! ### The step as the reset, the fetch fault, or one instruction -/

/-- The halt check is EXIT's own meaning and a wait is GETI's (30_encoding.md R80, 42_syscalls.md R162), so a step is
the reset, the fetch fault, or the meaning of one instruction. -/
theorem step_cases_exec {s t : State} (h : step s = .next t) :
    t = applyReset s ∨
    (fetchByte s = none ∧ t = raiseFault .fetchOutOfRange s) ∨
    (s.status = .running ∧ ∃ i, currentInstr s = some i ∧ exec i s = .next t) ∨
    (s.status = .awaitingInput ∧ exec .calGeti s = .next t) := by
  obtain ⟨-, ht⟩ | ⟨-, -, hf, ht⟩ | ⟨-, hs, hf, ht⟩ | ⟨b, -, hs, hf, -, he⟩ | ⟨-, hs, ht⟩ := step_cases s t h
  · exact .inl ht
  · exact .inr (.inl ⟨hf, ht⟩)
  · exact .inr (.inr (.inl ⟨hs, .calExit, by simp [currentInstr, hf, decodeByteWith], by rw [ht]; rfl⟩))
  · exact .inr (.inr (.inl ⟨hs, _, by simp [currentInstr, hf], he⟩))
  · exact .inr (.inr (.inr ⟨hs, by rw [ht]; rfl⟩))

theorem currentInstr_eq_some {s : State} {i : Instr} (h : currentInstr s = some i) :
    ∃ b, fetchByte s = some b ∧ decodeByteWith s.params.syscallMap b = i :=
  Option.map_eq_some_iff.mp h

theorem currentInstr_congr {s t : State} (hi : t.image = s.image) (hp : t.params = s.params) (hpc : t.pc = s.pc) :
    currentInstr t = currentInstr s := by
  simp [currentInstr, fetchByte_congr s t hi hpc, hp]

@[simp] theorem currentInstr_setStatus (s : State) (st : Status) : currentInstr (setStatus s st) = currentInstr s :=
  rfl

theorem currentInstr_wf {s : State} {i : Instr} (h : currentInstr s = some i) : i.wf = true := by
  obtain ⟨b, -, rfl⟩ := currentInstr_eq_some h
  exact decodeByteWith_wf _ b

/-! ### Every value stays in range (00_scope.md R6, R7) -/

section Words
variable {s : State}

theorem wordsInRange_writeX (hs : WordsInRange s) (n : Reg) {v : Nat} (hv : v < 2 ^ s.params.regBits) :
    WordsInRange (writeX s n v) where
  x k := by
    rw [readX_writeX, writeX_params]
    split
    · exact hv
    · exact hs.x k
  d k := by simpa using hs.d k
  out := by simpa using hs.out
  inbox := by simpa using hs.inbox

theorem wordsInRange_writeD (hs : WordsInRange s) (i : Dmr) {v : Nat} (hv : v < 2 ^ s.params.regBits) :
    WordsInRange (writeD s i v) where
  x := hs.x
  d k := by
    rw [readD_writeD, writeD_params]
    split
    · exact hv
    · exact hs.d k
  out := hs.out
  inbox := hs.inbox

theorem wordsInRange_setPc (hs : WordsInRange s) (p : Nat) : WordsInRange (setPc s p) :=
  ⟨hs.x, hs.d, hs.out, hs.inbox⟩

theorem wordsInRange_advance (hs : WordsInRange s) : WordsInRange (advance s) := wordsInRange_setPc hs _

theorem wordsInRange_setStatus (hs : WordsInRange s) (st : Status) : WordsInRange (setStatus s st) :=
  ⟨hs.x, hs.d, hs.out, hs.inbox⟩

theorem wordsInRange_raiseFault (hs : WordsInRange s) (r : FaultReason) : WordsInRange (raiseFault r s) :=
  wordsInRange_setStatus hs _

theorem wordsInRange_outWrite (hs : WordsInRange s) {v : Nat} (hv : v < 2 ^ s.params.regBits) :
    WordsInRange (outWrite s v) where
  x := hs.x
  d := hs.d
  out := by
    rw [outWrite_out, outWrite_params, List.forall_mem_append]
    exact ⟨hs.out, by simpa using hv⟩
  inbox := hs.inbox

theorem wordsInRange_takeAnswer (hs : WordsInRange s) {a : Answer} {rest : List Answer} (h : s.inbox = a :: rest) :
    WordsInRange (takeAnswer s a rest) where
  x := hs.x
  d := hs.d
  out := hs.out
  inbox b hb := hs.inbox b (h ▸ List.mem_cons_of_mem a hb)

/-- Reset leaves zeros and the answers the host has not been asked for (10_state.md R38; log 9). -/
theorem wordsInRange_applyReset (hs : WordsInRange s) : WordsInRange (applyReset s) where
  x k := by simp
  d k := by simp [readD]
  out := by simp
  inbox := hs.inbox

theorem wordsInRange_storeResult (hs : WordsInRange s) {v : Nat} (hv : v < 2 ^ s.params.regBits) :
    WordsInRange (storeResult s v) :=
  wordsInRange_advance (wordsInRange_writeX hs 11 hv)

theorem wordsInRange_storeSum (hs : WordsInRange s) (sum : Nat) : WordsInRange (storeSum s sum) := by
  obtain ⟨-, -, e⟩ | ⟨-, e⟩ := storeSum_cases s sum <;> rw [e]
  · exact wordsInRange_raiseFault hs _
  · exact wordsInRange_storeResult hs (Nat.mod_lt _ (Nat.two_pow_pos _))

theorem wordsInRange_writeFlags (hs : WordsInRange s) (hW : 4 ≤ s.params.regBits) (a r : Nat) :
    WordsInRange (writeFlags s a r) := by
  have hone : 1 < 2 ^ s.params.regBits := Nat.one_lt_two_pow (by omega)
  refine wordsInRange_writeX (wordsInRange_writeX hs 14 ?_) 15 ?_
  · exact (greaterFlag_le a r).trans_lt hone
  · rw [writeX_params]
    exact (lessFlag_le a r).trans_lt hone

theorem wordsInRange_takeBranch {w : State} (hs : WordsInRange s) (hw : WordsInRange w) (target : Int) :
    WordsInRange (takeBranch s w target) := by
  obtain ⟨-, e⟩ | ⟨-, e⟩ := takeBranch_cases s w target <;> rw [e]
  · exact wordsInRange_raiseFault hs _
  · exact wordsInRange_setPc hw _

/-- GETI stores a value the host promised to keep below `2^W` (60_exceptions.md R213). -/
theorem wordsInRange_exchangeInput (hs : WordsInRange s) : WordsInRange (exchangeInput s) := by
  obtain ⟨-, e⟩ | ⟨v, rest, hin, e⟩ | ⟨rest, hin, e⟩ := exchangeInput_cases s <;> rw [e]
  · exact wordsInRange_setStatus hs _
  · have hv : (Answer.value v).fits s.params.regBits = true := hs.inbox _ (by simp [hin])
    exact wordsInRange_setStatus
      (wordsInRange_storeResult (wordsInRange_takeAnswer hs hin) (of_decide_eq_true hv)) _
  · exact wordsInRange_raiseFault (wordsInRange_takeAnswer hs hin) _

/-- The 4-bit immediate is a register value (40_manipulation.md R100). -/
theorem zextImm_lt_two_pow (imm : BitVec 4) {w : Nat} (hw : 4 ≤ w) : zextImm imm < 2 ^ w :=
  (zextImm_lt imm).trans_le (Nat.pow_le_pow_right Nat.two_pos hw)

/-- No instruction takes a value out of range. -/
theorem exec_keeps_wordsInRange {i : Instr} {t : State} (hW : 4 ≤ s.params.regBits) (hs : WordsInRange s)
    (h : exec i s = .next t) : WordsInRange t := by
  cases i <;> cases h
  case set sel imm => exact wordsInRange_advance (wordsInRange_writeD hs sel (zextImm_lt_two_pow imm hW))
  case mov sel n => exact wordsInRange_advance (wordsInRange_writeX hs n (hs.d sel))
  case get sel n => exact wordsInRange_advance (wordsInRange_writeD hs sel (hs.x n))
  case cmp sel n => exact wordsInRange_advance (wordsInRange_writeFlags hs hW _ _)
  case jmp disp => exact wordsInRange_takeBranch hs (wordsInRange_writeX hs 13 (truncW_lt _ _)) _
  case jie | jig =>
    split
    · exact wordsInRange_takeBranch hs hs _
    · exact wordsInRange_advance hs
  case calExit => exact wordsInRange_setStatus hs _
  case calAnd => exact wordsInRange_storeResult hs (Nat.and_lt_two_pow _ (hs.d 1))
  case calOr => exact wordsInRange_storeResult hs (Nat.or_lt_two_pow (hs.d 0) (hs.d 1))
  case calXor => exact wordsInRange_storeResult hs (Nat.xor_lt_two_pow (hs.d 0) (hs.d 1))
  case calNot => exact wordsInRange_storeResult hs (complementW_lt _ _)
  case calAdd | calInc => exact wordsInRange_storeSum hs _
  case calSub | calDec => exact wordsInRange_storeResult hs (truncW_lt _ _)
  case calPc => exact wordsInRange_advance (wordsInRange_writeX hs 13 (truncW_lt _ _))
  case calRet =>
    split
    · exact wordsInRange_advance (wordsInRange_setPc hs _)
    · exact wordsInRange_setPc hs _
  case calGeti => exact wordsInRange_exchangeInput hs
  case calPuti => exact wordsInRange_advance (wordsInRange_outWrite hs (hs.x 12))
  case calReserved13 | calReserved14 | calReserved16 => exact wordsInRange_raiseFault hs _

end Words

/-- No step changes the image or the parameters (10_state.md R37). -/
theorem step_keeps_image_params {s t : State} (h : step s = .next t) : t.image = s.image ∧ t.params = s.params := by
  obtain rfl | ⟨-, rfl⟩ | ⟨-, i, -, he⟩ | ⟨-, he⟩ := step_cases_exec h
  · exact ⟨rfl, rfl⟩
  · exact ⟨rfl, rfl⟩
  · obtain ⟨himage, hparams, -, -⟩ := exec_keeps_launch i s t he
    exact ⟨himage, hparams⟩
  · obtain ⟨himage, hparams, -, -⟩ := exec_keeps_launch .calGeti s t he
    exact ⟨himage, hparams⟩

theorem step_keeps_wordsInRange {s t : State} (hW : 4 ≤ s.params.regBits) (hs : WordsInRange s)
    (h : step s = .next t) : WordsInRange t := by
  obtain rfl | ⟨-, rfl⟩ | ⟨-, i, -, he⟩ | ⟨-, he⟩ := step_cases_exec h
  · exact wordsInRange_applyReset hs
  · exact wordsInRange_raiseFault hs _
  · exact exec_keeps_wordsInRange hW hs he
  · exact exec_keeps_wordsInRange hW hs he

/-! ### R0 (10_state.md R21) -/

/-- No instruction changes R0, in any state. -/
theorem exec_keeps_readX_zero {i : Instr} {s t : State} (h : exec i s = .next t) : readX t 0 = readX s 0 := by
  have hbranch : ∀ w target, readX w 0 = readX s 0 → readX (takeBranch s w target) 0 = readX s 0 := by
    intro w target hw
    obtain ⟨-, e⟩ | ⟨-, e⟩ := takeBranch_cases s w target <;> simp [e, hw]
  have hresult : ∀ (u : State) v, readX (storeResult u v) 0 = readX u 0 := by
    intro u v; simp [readX_storeResult]
  have hsum : ∀ sum, readX (storeSum s sum) 0 = readX s 0 := by
    intro sum
    obtain ⟨-, -, e⟩ | ⟨-, e⟩ := storeSum_cases s sum <;> simp [e, hresult]
  cases i <;> cases h
  case cmp => simp [readX_writeFlags]
  case jmp => exact hbranch _ _ (readX_writeX_zero s 13 _)
  case jie | jig =>
    split
    · exact hbranch _ _ rfl
    · rfl
  case calAdd | calInc => exact hsum _
  case calRet => split <;> rfl
  case calGeti =>
    obtain ⟨-, e⟩ | ⟨_, _, -, e⟩ | ⟨_, -, e⟩ := exchangeInput_cases s <;> simp [e, hresult]
  all_goals simp [hresult]

/-! ### `pc` (10_state.md R31) -/

/-- A taken branch moves `pc` forward by at most 15 (30_encoding.md R74). -/
theorem takeBranch_pc_le {s w : State} {disp : Int} (hd : dispInRange disp = true) :
    (takeBranch s w (branchTarget s disp)).pc ≤ s.pc + 15 := by
  simp only [dispInRange, Bool.and_eq_true, decide_eq_true_eq] at hd
  obtain ⟨-, e⟩ | ⟨-, e⟩ := takeBranch_cases s w (branchTarget s disp) <;> rw [e]
  · simp
  · simp only [setPc_pc, branchTarget]
    omega

theorem storeSum_pc_le (s : State) (sum : Nat) : (storeSum s sum).pc ≤ s.pc + 15 := by
  obtain ⟨-, -, e⟩ | ⟨-, e⟩ := storeSum_cases s sum <;> simp [e]

theorem exchangeInput_pc_le (s : State) : (exchangeInput s).pc ≤ s.pc + 15 := by
  obtain ⟨-, e⟩ | ⟨_, _, -, e⟩ | ⟨_, -, e⟩ := exchangeInput_cases s <;> simp [e]

/-- An instruction moves `pc` forward by at most 15, and RET takes it to at most `x[13] + 1` (42_syscalls.md R161). -/
theorem exec_pc_le {i : Instr} {s t : State} (hw : i.wf = true) (h : exec i s = .next t) :
    t.pc ≤ s.pc + 15 ∨ t.pc ≤ readX s 13 + 1 := by
  cases i <;> cases h
  case calRet => right; split <;> simp
  all_goals left
  case jmp => exact takeBranch_pc_le hw
  case jie | jig =>
    split
    · exact takeBranch_pc_le hw
    · simp
  case calAdd | calInc => exact storeSum_pc_le s _
  case calGeti => exact exchangeInput_pc_le s
  all_goals simp

/-! ### The status (10_state.md R32) -/

/-- The statuses other than `Running` that an instruction can leave a running core in, each with its cause in the
state before it (60_exceptions.md R201). -/
inductive StopsWith (s : State) : Instr → Status → Prop where
  | wait : s.inbox = [] → StopsWith s .calGeti .awaitingInput
  | halt : StopsWith s .calExit .halted
  | branch {i : Instr} {disp : Int} : BranchTaken s i disp → branchTarget s disp < 0 →
      StopsWith s i (.faulted .branchTargetNegative)
  | reserved {i : Instr} : i.isReserved = true → StopsWith s i (.faulted .undefinedSyscall)
  | inputError : s.inbox.head? = some .error → StopsWith s .calGeti (.faulted .inputParse)
  | addOverflow : s.params.addOverflow = .fault → 2 ^ s.params.regBits ≤ sumDmrs s →
      StopsWith s .calAdd (.faulted .arithOverflow)
  | incOverflow : s.params.addOverflow = .fault → 2 ^ s.params.regBits ≤ sumInc s →
      StopsWith s .calInc (.faulted .arithOverflow)

theorem flagsEqual_iff (s : State) : flagsEqual s = true ↔ readX s 14 = 0 ∧ readX s 15 = 0 := by
  simp [flagsEqual]

theorem flagsGreater_iff (s : State) : flagsGreater s = true ↔ readX s 14 = 1 ∧ readX s 15 = 0 := by
  simp [flagsGreater]

theorem takeBranch_status {s w : State} {i : Instr} {disp : Int} (hi : BranchTaken s i disp)
    (hw : w.status = .running) :
    (takeBranch s w (branchTarget s disp)).status = .running ∨
      ((takeBranch s w (branchTarget s disp)).pc = s.pc ∧
        StopsWith s i (takeBranch s w (branchTarget s disp)).status) := by
  obtain ⟨hneg, e⟩ | ⟨-, e⟩ := takeBranch_cases s w (branchTarget s disp) <;> rw [e]
  · exact .inr ⟨rfl, .branch hi hneg⟩
  · exact .inl hw

theorem exchangeInput_status (s : State) :
    (exchangeInput s).status = .running ∨
      ((exchangeInput s).pc = s.pc ∧ StopsWith s .calGeti (exchangeInput s).status) := by
  obtain ⟨hin, e⟩ | ⟨_, _, -, e⟩ | ⟨_, hin, e⟩ := exchangeInput_cases s <;> rw [e]
  · exact .inr ⟨rfl, .wait hin⟩
  · exact .inl rfl
  · exact .inr ⟨rfl, .inputError (by rw [hin]; rfl)⟩

/-- An instruction leaves a running core running, or leaves `pc` where it is and stops the core for a cause of that
instruction. -/
theorem exec_status_of_running {i : Instr} {s t : State} (hs : s.status = .running) (h : exec i s = .next t) :
    t.status = .running ∨ (t.pc = s.pc ∧ StopsWith s i t.status) := by
  cases i <;> cases h
  case jmp disp => exact takeBranch_status (.inl rfl) (by simpa using hs)
  case jie disp =>
    split
    · next hf => exact takeBranch_status (.inr (.inl ⟨rfl, (flagsEqual_iff s).mp hf⟩)) hs
    · exact .inl hs
  case jig disp =>
    split
    · next hf => exact takeBranch_status (.inr (.inr ⟨rfl, (flagsGreater_iff s).mp hf⟩)) hs
    · exact .inl hs
  case calExit => exact .inr ⟨rfl, .halt⟩
  case calAdd =>
    obtain ⟨hsum, hp, e⟩ | ⟨-, e⟩ := storeSum_cases s (sumDmrs s) <;> rw [e]
    · exact .inr ⟨rfl, .addOverflow hp hsum⟩
    · exact .inl (by simpa using hs)
  case calInc =>
    obtain ⟨hsum, hp, e⟩ | ⟨-, e⟩ := storeSum_cases s (sumInc s) <;> rw [e]
    · exact .inr ⟨rfl, .incOverflow hp hsum⟩
    · exact .inl (by simpa using hs)
  case calRet => left; split <;> exact hs
  case calGeti => exact exchangeInput_status s
  case calReserved13 | calReserved14 | calReserved16 => exact .inr ⟨rfl, .reserved rfl⟩
  all_goals exact .inl (by simpa using hs)

/-- The same for the GETI of a waiting core, which sets the status itself (42_syscalls.md R162). -/
theorem exec_status {i : Instr} {s t : State} (hs : s.status = .running ∨ i = .calGeti) (h : exec i s = .next t) :
    t.status = .running ∨ (t.pc = s.pc ∧ StopsWith s i t.status) := by
  obtain hs | rfl := hs
  · exact exec_status_of_running hs h
  · cases h
    exact exchangeInput_status s

/-! ### The invariant -/

theorem params_wf_iff (p : Params) :
    p.wf = true ↔ 4 ≤ p.regBits ∧ p.pcBits ≤ p.regBits ∧ p.syscallMap.wf = true := by
  simp [Params.wf, and_assoc]

/-- An instruction's address fits a register (10_state.md R25). -/
theorem pc_lt_of_currentInstr {s : State} {i : Instr} (hs : s.Inv) (hi : currentInstr s = some i) :
    s.pc < 2 ^ s.params.regBits := by
  obtain ⟨b, hf, -⟩ := currentInstr_eq_some hi
  obtain ⟨-, hbits, -⟩ := (params_wf_iff _).mp hs.params
  calc s.pc < s.params.imemSize := pc_lt_of_fetchByte _ s b hf hs.image
    _ ≤ 2 ^ s.params.regBits := Nat.pow_le_pow_right Nat.two_pos hbits

theorem statusMatchesPc_of_running {s : State} (h : s.status = .running) : StatusMatchesPc s := by
  simp [StatusMatchesPc, h]

theorem statusMatchesPc_raiseFault_fetchOutOfRange {s : State} (h : fetchByte s = none) :
    StatusMatchesPc (raiseFault .fetchOutOfRange s) := h

/-- A core that stops at `pc` for a cause of the instruction there has the status that instruction gives. -/
theorem statusMatchesPc_setStatus {s : State} {i : Instr} {st : Status} (hm : s.params.syscallMap.wf = true)
    (hi : currentInstr s = some i) (h : StopsWith s i st) : StatusMatchesPc (setStatus s st) := by
  obtain ⟨b, hf, hb⟩ := currentInstr_eq_some hi
  cases h with
  | wait => exact hi
  | halt => exact hf.trans (congrArg some (eq_haltByte_of_decodeByteWith_eq_calExit hm hb))
  | @branch i disp htaken hneg =>
    have hkind : i = .jmp disp ∨ i = .jie disp ∨ i = .jig disp := htaken.imp_right (.imp And.left And.left)
    exact ⟨disp, hneg, by simpa [hi] using hkind⟩
  | reserved hr => exact ⟨b, hf, le_toNat_of_isReserved (hb ▸ hr)⟩
  | inputError => exact hi
  | addOverflow hp => exact ⟨hp, by simp [hi]⟩
  | incOverflow hp => exact ⟨hp, by simp [hi]⟩

/-- What `StatusMatchesPc` reads. -/
theorem statusMatchesPc_congr {s t : State} (hi : t.image = s.image) (hp : t.params = s.params)
    (hpc : t.pc = s.pc) (hst : t.status = s.status) (h : StatusMatchesPc s) : StatusMatchesPc t := by
  unfold StatusMatchesPc branchTarget at h ⊢
  rw [hst, hp, hpc, currentInstr_congr hi hp hpc, fetchByte_congr s t hi hpc]
  exact h

/-- The instruction at `pc` keeps the invariant, for a running core and for one that waits at its GETI. -/
theorem inv_exec {i : Instr} {s t : State} (hs : s.Inv) (hi : currentInstr s = some i)
    (hst : s.status = .running ∨ i = .calGeti) (h : exec i s = .next t) : t.Inv := by
  obtain ⟨himage, hparams, -, -⟩ := exec_keeps_launch i s t h
  obtain ⟨hW, -, hm⟩ := (params_wf_iff _).mp hs.params
  exact {
    rZero := (exec_keeps_readX_zero h).trans hs.rZero
    words := exec_keeps_wordsInRange hW hs.words h
    image := by rw [himage, hparams]; exact hs.image
    params := by rw [hparams]; exact hs.params
    pcBound := by
      have hpc := pc_lt_of_currentInstr hs hi
      have hret := hs.words.x 13
      rw [hparams]
      obtain hle | hle := exec_pc_le (currentInstr_wf hi) h <;> omega
    status := by
      obtain hrun | ⟨hpc, hstop⟩ := exec_status hst h
      · exact statusMatchesPc_of_running hrun
      · exact statusMatchesPc_congr (s := setStatus s t.status) himage hparams hpc rfl
          (statusMatchesPc_setStatus hm hi hstop) }

theorem inv_applyReset {s : State} (hs : s.Inv) : (applyReset s).Inv where
  rZero := readX_applyReset s 0
  words := wordsInRange_applyReset hs.words
  image := hs.image
  params := hs.params
  pcBound := Nat.zero_le _
  status := statusMatchesPc_of_running rfl

theorem inv_fetch_fault {s : State} (hs : s.Inv) (hf : fetchByte s = none) :
    (raiseFault .fetchOutOfRange s).Inv where
  rZero := hs.rZero
  words := wordsInRange_raiseFault hs.words _
  image := hs.image
  params := hs.params
  pcBound := hs.pcBound
  status := statusMatchesPc_raiseFault_fetchOutOfRange hf

/-- A waiting core stands at its GETI (10_state.md R36). -/
theorem currentInstr_of_waiting {s : State} (hs : s.Inv) (hst : s.status = .awaitingInput) :
    currentInstr s = some .calGeti := by
  have h := hs.status
  rw [StatusMatchesPc, hst] at h
  exact h

end Sys2Proof.Machine

section
open Sys2Proof Sys2Proof.Machine

/-- Settles O47: the reset, the fetch fault and the instruction at `pc` each keep the invariant. -/
theorem invariantIsKeptByEveryStep : Obligations.InvariantIsKeptByEveryStep := by
  unfold Obligations.InvariantIsKeptByEveryStep
  intro s t hs h
  obtain rfl | ⟨hf, rfl⟩ | ⟨hst, i, hi, he⟩ | ⟨hst, he⟩ := step_cases_exec h
  · exact inv_applyReset hs
  · exact inv_fetch_fault hs hf
  · exact inv_exec hs hi (.inl hst) he
  · exact inv_exec hs (currentInstr_of_waiting hs hst) (.inr rfl) he

/-- Settles O53: every operation of the state keeps its values in range, and no step changes the parameters. -/
theorem stepsKeepEveryValueInRange : Obligations.StepsKeepEveryValueInRange := by
  unfold Obligations.StepsKeepEveryValueInRange
  intro s t hW hs h
  obtain ⟨-, hparams⟩ := step_keeps_image_params h
  exact ⟨step_keeps_wordsInRange hW hs h, congrArg Params.regBits hparams⟩

/-- Settles O54: every value stands in `State.reset`, and `Params.wf` evaluates. -/
theorem parametersHaveTheSpecsValues : Obligations.ParametersHaveTheSpecsValues := by
  unfold Obligations.ParametersHaveTheSpecsValues
  exact ⟨rfl, rfl, rfl, rfl, rfl, rfl, rfl, rfl, by decide, by decide⟩

end

/-! PROOFS: the state's statements (10_state.md). What each instruction leaves unchanged, one lemma per piece of state
over all instructions, from which the frames of the groups follow; and the invariant from launch on. -/

namespace Sys2Proof.Machine

/-! ### What the shared operations leave unchanged -/

section SharedOperations
variable {α : Type} {s w : State} {target : Int}

/-- A part of the state that a taken branch keeps, whether it jumps or faults (41_branch.md R130). -/
theorem takeBranch_keeps (f : State → α) (hfault : f (raiseFault .branchTargetNegative s) = f s)
    (hjump : f (setPc w target.toNat) = f s) : f (takeBranch s w target) = f s := by
  obtain ⟨-, e⟩ | ⟨-, e⟩ := takeBranch_cases s w target <;> rw [e]
  · exact hfault
  · exact hjump

/-- A part of the state that ADD's and INC's end keeps, whether it stores or faults (42_syscalls.md R152, R158). -/
theorem storeSum_keeps (f : State → α) (sum : Nat) (hfault : f (raiseFault .arithOverflow s) = f s)
    (hstore : ∀ v, f (storeResult s v) = f s) : f (storeSum s sum) = f s := by
  obtain ⟨-, -, e⟩ | ⟨-, e⟩ := storeSum_cases s sum <;> rw [e]
  · exact hfault
  · exact hstore _

/-- A part of the state that GETI keeps, whether it waits, stores or faults (42_syscalls.md R162). -/
theorem exchangeInput_keeps (f : State → α) (hwait : f (setStatus s .awaitingInput) = f s)
    (hvalue : ∀ v rest, f (setStatus (storeResult (takeAnswer s (.value v) rest) v) .running) = f s)
    (herror : ∀ rest, f (raiseFault .inputParse (takeAnswer s .error rest)) = f s) :
    f (exchangeInput s) = f s := by
  obtain ⟨-, e⟩ | ⟨v, rest, -, e⟩ | ⟨rest, -, e⟩ := exchangeInput_cases s <;> rw [e]
  · exact hwait
  · exact hvalue v rest
  · exact herror rest

theorem readX_takeBranch {k : Reg} (hw : readX w k = readX s k) : readX (takeBranch s w target) k = readX s k :=
  takeBranch_keeps (readX · k) rfl hw

@[simp] theorem takeBranch_d (hw : w.d = s.d) : (takeBranch s w target).d = s.d := takeBranch_keeps State.d rfl hw
@[simp] theorem takeBranch_out (hw : w.out = s.out) : (takeBranch s w target).out = s.out :=
  takeBranch_keeps State.out rfl hw
@[simp] theorem takeBranch_answers (hw : w.answers = s.answers) : (takeBranch s w target).answers = s.answers :=
  takeBranch_keeps State.answers rfl hw
@[simp] theorem takeBranch_inbox (hw : w.inbox = s.inbox) : (takeBranch s w target).inbox = s.inbox :=
  takeBranch_keeps State.inbox rfl hw

theorem readX_storeResult_of_ne {k : Reg} (hk : k ≠ 11) (v : Nat) : readX (storeResult s v) k = readX s k := by
  simp [readX_storeResult, hk]

theorem readX_storeSum_of_ne {k : Reg} (hk : k ≠ 11) (sum : Nat) : readX (storeSum s sum) k = readX s k :=
  storeSum_keeps (readX · k) sum rfl (readX_storeResult_of_ne hk)

@[simp] theorem storeSum_d (sum : Nat) : (storeSum s sum).d = s.d :=
  storeSum_keeps State.d sum rfl (storeResult_d s)
@[simp] theorem storeSum_out (sum : Nat) : (storeSum s sum).out = s.out :=
  storeSum_keeps State.out sum rfl (storeResult_out s)
@[simp] theorem storeSum_answers (sum : Nat) : (storeSum s sum).answers = s.answers :=
  storeSum_keeps State.answers sum rfl (storeResult_answers s)
@[simp] theorem storeSum_inbox (sum : Nat) : (storeSum s sum).inbox = s.inbox :=
  storeSum_keeps State.inbox sum rfl (storeResult_inbox s)

theorem readX_exchangeInput_of_ne {k : Reg} (hk : k ≠ 11) : readX (exchangeInput s) k = readX s k :=
  exchangeInput_keeps (readX · k) rfl (fun v _ => readX_storeResult_of_ne hk v) fun _ => rfl

@[simp] theorem exchangeInput_d : (exchangeInput s).d = s.d :=
  exchangeInput_keeps State.d rfl (by simp) fun _ => rfl
@[simp] theorem exchangeInput_out : (exchangeInput s).out = s.out :=
  exchangeInput_keeps State.out rfl (by simp) fun _ => rfl

/-- A taken branch keeps the status, or faults and writes nothing (41_branch.md R130). -/
theorem takeBranch_status_or_fault (hw : w.status = s.status) :
    (takeBranch s w target).status = s.status ∨
      ((takeBranch s w target).status = .faulted .branchTargetNegative ∧ (takeBranch s w target).x = s.x ∧
        (takeBranch s w target).pc = s.pc) := by
  obtain ⟨-, e⟩ | ⟨-, e⟩ := takeBranch_cases s w target <;> rw [e]
  · exact .inr ⟨rfl, rfl, rfl⟩
  · exact .inl hw

/-- ADD's and INC's end keeps the status, or faults and writes nothing (42_syscalls.md R152, R158). -/
theorem storeSum_status_or_fault (sum : Nat) :
    (storeSum s sum).status = s.status ∨
      ((storeSum s sum).status = .faulted .arithOverflow ∧ (storeSum s sum).x = s.x ∧ (storeSum s sum).pc = s.pc) := by
  obtain ⟨-, -, e⟩ | ⟨-, e⟩ := storeSum_cases s sum <;> rw [e]
  · exact .inr ⟨rfl, rfl, rfl⟩
  · exact .inl (storeResult_status s _)

end SharedOperations

/-! ### What each instruction leaves unchanged (10_state.md R27) -/

section Frame
variable {i : Instr} {s t : State}

/-- No instruction changes a general register outside its row of the write table. -/
theorem exec_keeps_readX (h : exec i s = .next t) {k : Reg} (hk : k ∉ xWrites i) : readX t k = readX s k := by
  cases i <;> cases h
  case mov sel n =>
    by_cases hn : n = 0
    · simp [hn]
    · exact readX_writeX_ne s n k _ (by simpa [xWrites, hn] using hk)
  case cmp =>
    obtain ⟨hgreater, hless⟩ : k ≠ 14 ∧ k ≠ 15 := by simpa [xWrites] using hk
    simp [readX_writeFlags, hgreater, hless]
  case jmp => exact readX_takeBranch (readX_writeX_ne s 13 k _ (by simpa [xWrites] using hk))
  case jie | jig =>
    split
    · exact readX_takeBranch rfl
    · rfl
  case calAdd | calInc => exact readX_storeSum_of_ne (by simpa [xWrites] using hk) _
  case calSub | calAnd | calOr | calXor | calNot | calDec =>
    exact readX_storeResult_of_ne (by simpa [xWrites] using hk) _
  case calPc => exact readX_writeX_ne s 13 k _ (by simpa [xWrites] using hk)
  case calRet => split <;> rfl
  case calGeti => exact readX_exchangeInput_of_ne (by simpa [xWrites] using hk)
  all_goals rfl

/-- No instruction changes a DMR outside its row of the write table. -/
theorem exec_keeps_readD (h : exec i s = .next t) {k : Dmr} (hk : k ∉ dWrites i) : readD t k = readD s k := by
  cases i <;> cases h
  case set | get =>
    rw [readD_advance, readD_writeD, if_neg (by simpa [dWrites] using hk)]
  case jie | jig => split <;> simp [readD]
  case calRet => split <;> rfl
  all_goals simp [readD]

/-- Only PUTI writes the output stream (10_state.md R35). -/
theorem exec_keeps_out (h : exec i s = .next t) (hi : i ≠ .calPuti) : t.out = s.out := by
  cases i <;> cases h
  case calPuti => exact absurd rfl hi
  case jie | jig => split <;> simp
  case calRet => split <;> rfl
  all_goals simp

/-- Only GETI takes an answer of the host (60_exceptions.md R213, R214). -/
theorem exec_keeps_host (h : exec i s = .next t) (hi : i ≠ .calGeti) :
    t.answers = s.answers ∧ t.inbox = s.inbox := by
  cases i <;> cases h
  case calGeti => exact absurd rfl hi
  case jie | jig => split <;> simp
  case calRet => split <;> exact ⟨rfl, rfl⟩
  all_goals simp

/-- An instruction that does not set `pc` advances it, unless it faults or waits (10_state.md R30). -/
theorem exec_advances_or_stops (h : exec i s = .next t) (hi : setsPc i = false) :
    t.pc = s.pc + 1 ∨ (t.pc = s.pc ∧ (t.status = .awaitingInput ∨ ∃ r, t.status = .faulted r)) := by
  cases i <;> cases h
  case jmp | jie | jig | calExit | calRet | calReserved13 | calReserved14 | calReserved16 => cases hi
  case calAdd | calInc =>
    obtain ⟨-, -, e⟩ | ⟨-, e⟩ := storeSum_cases s _ <;> rw [e]
    · exact .inr ⟨rfl, .inr ⟨_, rfl⟩⟩
    · exact .inl (storeResult_pc s _)
  case calGeti =>
    obtain ⟨-, e⟩ | ⟨_, _, -, e⟩ | ⟨_, -, e⟩ := exchangeInput_cases s <;> rw [e]
    · exact .inr ⟨rfl, .inl rfl⟩
    · exact .inl (by simp)
    · exact .inr ⟨rfl, .inr ⟨_, rfl⟩⟩
  all_goals exact .inl (by simp)

/-- The old output, the reset input, the parameters and every byte of the image stay (10_state.md R37). -/
theorem exec_keeps_launch_reads (h : exec i s = .next t) :
    t.pastOut = s.pastOut ∧ t.resetIn = s.resetIn ∧ t.params = s.params ∧
      Memory.size t.image = Memory.size s.image ∧ ∀ a, Memory.read t.image a = Memory.read s.image a := by
  obtain ⟨himage, hparams, hpast, hreset⟩ := exec_keeps_launch i s t h
  exact ⟨hpast, hreset, hparams, by rw [himage], fun a => by rw [himage]⟩

/-- An instruction other than GETI and PUTI leaves everything outside the registers, `pc` and the status. -/
theorem exec_keeps_surroundings (h : exec i s = .next t) (hio : i ≠ .calGeti ∧ i ≠ .calPuti) :
    t.out = s.out ∧ t.answers = s.answers ∧ t.inbox = s.inbox ∧ t.pastOut = s.pastOut ∧ t.resetIn = s.resetIn ∧
      t.params = s.params ∧ Memory.size t.image = Memory.size s.image ∧
      ∀ a, Memory.read t.image a = Memory.read s.image a := by
  obtain ⟨hgeti, hputi⟩ := hio
  obtain ⟨hanswers, hinbox⟩ := exec_keeps_host h hgeti
  exact ⟨exec_keeps_out h hputi, hanswers, hinbox, exec_keeps_launch_reads h⟩

end Frame

/-! ### Terminal statuses and launch -/

theorem ended_iff (s : State) : s.ended = true ↔ s.status = .halted ∨ ∃ r, s.status = .faulted r := by
  unfold State.ended
  cases s.status <;> simp

/-- A running core that an instruction halts ran EXIT (10_state.md R32). -/
theorem halted_iff_calExit {i : Instr} {s t : State} (hs : s.status = .running) (h : exec i s = .next t) :
    t.status = .halted ↔ i = .calExit := by
  constructor
  · intro hhalt
    obtain hrun | ⟨-, hstop⟩ := exec_status_of_running hs h
    · rw [hhalt] at hrun
      cases hrun
    · rw [hhalt] at hstop
      cases hstop
      rfl
  · rintro rfl
    cases h
    rfl

/-- A launch holds the image, the parameters and the answers it was given, and is otherwise the reset state
(60_exceptions.md R213). -/
theorem launch_eq_some {p : Params} {bytes : List Byte} {answers : List Answer} {s : State}
    (h : launch p bytes answers = some s) :
    bytes.length ≤ p.imemSize ∧
      s = { State.reset with image := Memory.ofBytes bytes, params := p, inbox := answers } := by
  unfold launch at h
  split at h
  · next hlen => exact ⟨hlen, (Option.some.inj h).symm⟩
  · cases h

@[simp] theorem readX_reset (k : Reg) : readX State.reset k = 0 := by simp [readX, State.reset]

@[simp] theorem readD_reset (k : Dmr) : readD State.reset k = 0 := by simp [readD, State.reset]

/-- A launched state meets the invariant when the host keeps its promise about the answers. -/
theorem inv_launch {p : Params} {bytes : List Byte} {answers : List Answer} {s : State} (hp : p.wf = true)
    (hanswers : ∀ a ∈ answers, a.fits p.regBits = true) (h : launch p bytes answers = some s) : s.Inv := by
  obtain ⟨hlen, rfl⟩ := launch_eq_some h
  exact {
    rZero := readX_reset 0
    words := {
      x := fun n => (readX_reset n).trans_lt (Nat.two_pow_pos _)
      d := fun k => (readD_reset k).trans_lt (Nat.two_pow_pos _)
      out := fun _ hv => absurd hv List.not_mem_nil
      inbox := hanswers }
    image := Memory.wf_ofBytes _ bytes hlen
    params := hp
    pcBound := Nat.zero_le _
    status := statusMatchesPc_of_running rfl }

/-- The invariant, and the image and the parameters of `s` (10_state.md R37). -/
def InvWithLaunchOf (s t : State) : Prop := t.Inv ∧ t.image = s.image ∧ t.params = s.params

theorem step_keeps_invWithLaunchOf {s t u : State} (ht : InvWithLaunchOf s t) (h : step t = .next u) :
    InvWithLaunchOf s u := by
  obtain ⟨hinv, himage, hparams⟩ := ht
  obtain ⟨himage', hparams'⟩ := step_keeps_image_params h
  exact ⟨invariantIsKeptByEveryStep t u hinv h, himage'.trans himage, hparams'.trans hparams⟩

end Sys2Proof.Machine

section
open Sys2Proof Sys2Proof.Machine

/-- Settles O30: the write table's rows of the four forms, none of which sets the status. -/
theorem manipulationFrame : Obligations.ManipulationFrame := by
  unfold Obligations.ManipulationFrame
  intro i sel n imm s t hi h
  have hio : i ≠ .calGeti ∧ i ≠ .calPuti := by obtain rfl | rfl | rfl | rfl := hi <;> simp
  refine ⟨fun k hmov hcmp => exec_keeps_readX h ?_, fun k hdest => exec_keeps_readD h ?_, ?_,
    exec_keeps_surroundings h hio⟩
  · obtain rfl | rfl | rfl | rfl := hi
    · simp [xWrites]
    · simp only [xWrites]
      split <;> simp [hmov rfl]
    · simp [xWrites]
    · simpa [xWrites] using hcmp rfl
  · obtain rfl | rfl | rfl | rfl := hi
    · simpa [dWrites] using hdest (.inl rfl)
    · simp [dWrites]
    · simpa [dWrites] using hdest (.inr rfl)
    · simp [dWrites]
  · obtain rfl | rfl | rfl | rfl := hi <;> cases h <;> simp

/-- Settles O31: a branch that is taken jumps or faults in place, one that is not advances. -/
theorem branchFrame : Obligations.BranchFrame := by
  unfold Obligations.BranchFrame
  intro i disp s t hi h
  have hd : dWrites i = [] := by obtain rfl | rfl | rfl := hi <;> rfl
  have hio : i ≠ .calGeti ∧ i ≠ .calPuti := by obtain rfl | rfl | rfl := hi <;> simp
  refine ⟨fun k hjmp => exec_keeps_readX h ?_, fun k => exec_keeps_readD h (by simp [hd]), ?_,
    exec_keeps_surroundings h hio⟩
  · obtain rfl | rfl | rfl := hi
    · simpa [xWrites] using hjmp rfl
    all_goals simp [xWrites]
  · obtain rfl | rfl | rfl := hi <;> cases h
    · exact takeBranch_status_or_fault (writeX_status s 13 _)
    all_goals
      split
      · exact takeBranch_status_or_fault rfl
      · exact .inl rfl

/-- Settles O32: every row of the write table is R11 alone, and only ADD and INC can fault. -/
theorem arithmeticFrame : Obligations.ArithmeticFrame := by
  unfold Obligations.ArithmeticFrame
  intro i s t hi h
  have hrow : ∀ j ∈ [Instr.calAdd, .calSub, .calAnd, .calOr, .calXor, .calNot, .calInc, .calDec],
      xWrites j = [11] ∧ dWrites j = [] ∧ j ≠ .calGeti ∧ j ≠ .calPuti := by decide
  obtain ⟨hx, hd, hio⟩ := hrow i hi
  refine ⟨fun k hk => exec_keeps_readX h (by simpa [hx] using hk), fun k => exec_keeps_readD h (by simp [hd]), ?_,
    exec_keeps_surroundings h hio⟩
  cases i <;> cases h
  case calAdd | calInc => exact (storeSum_status_or_fault _).imp_right fun hfault => ⟨by simp, hfault⟩
  case calSub | calAnd | calOr | calXor | calNot | calDec => exact .inl (storeResult_status s _)
  all_goals simp at hi

/-- Settles O33: EXIT and the reserved codes set the status alone, PC and RET leave it. -/
theorem controlCallFrame : Obligations.ControlCallFrame := by
  unfold Obligations.ControlCallFrame
  intro i c1 c4 s t hi h
  simp only [List.mem_cons, List.not_mem_nil, or_false] at hi
  have hd : dWrites i = [] := by obtain rfl | rfl | rfl | rfl | rfl | rfl := hi <;> rfl
  have hio : i ≠ .calGeti ∧ i ≠ .calPuti := by obtain rfl | rfl | rfl | rfl | rfl | rfl := hi <;> simp
  have hstay : i ≠ .calPc → i ≠ .calRet → t.pc = s.pc := by
    intro hpc hret
    cases i <;> cases h
    case calExit | calReserved13 | calReserved14 | calReserved16 => rfl
    case calPc => exact absurd rfl hpc
    case calRet => exact absurd rfl hret
    all_goals simp at hi
  refine ⟨fun k hpc => exec_keeps_readX h ?_, fun k => exec_keeps_readD h (by simp [hd]), ?_, hstay,
    exec_keeps_surroundings h hio⟩
  · cases i
    case calPc => simpa [xWrites] using hpc rfl
    case calExit | calRet | calReserved13 | calReserved14 | calReserved16 => simp [xWrites]
    all_goals simp at hi
  · rintro (rfl | rfl) <;> cases h
    · simp
    · split <;> rfl

/-- Settles O34: GETI writes R11 and its channel, PUTI the output. -/
theorem inputOutputFrame : Obligations.InputOutputFrame := by
  unfold Obligations.InputOutputFrame
  intro i s t hi h
  obtain rfl | rfl := hi
  · exact ⟨fun k hk => exec_keeps_readX h (by simpa [xWrites] using hk),
      fun k => exec_keeps_readD h (by simp [dWrites]), fun _ => exec_keeps_out h (by simp), by simp,
      exec_keeps_launch_reads h⟩
  · obtain ⟨hanswers, hinbox⟩ := exec_keeps_host h (by simp)
    have hstatus : t.status = s.status := by cases h; rfl
    exact ⟨fun k _ => exec_keeps_readX h (by simp [xWrites]), fun k => exec_keeps_readD h (by simp [dWrites]),
      by simp, fun _ => ⟨hstatus, hinbox, hanswers⟩, exec_keeps_launch_reads h⟩

/-- Settles O35: the three parts of the write table. -/
theorem registersChangeOnlyAsTheWriteTableLists : Obligations.RegistersChangeOnlyAsTheWriteTableLists := by
  unfold Obligations.RegistersChangeOnlyAsTheWriteTableLists
  intro i s t h
  exact ⟨fun _ => exec_keeps_readX h, fun _ => exec_keeps_readD h, exec_advances_or_stops h⟩

/-- Settles O36: reset gives 0, a fetch fault writes no register, and no instruction changes R0. -/
theorem rZeroNeverChanges : Obligations.RZeroNeverChanges := by
  unfold Obligations.RZeroNeverChanges
  refine ⟨fun s t hs h => ?_, fun i s t => exec_keeps_readX_zero⟩
  obtain rfl | ⟨-, rfl⟩ | ⟨-, i, -, he⟩ | ⟨-, he⟩ := step_cases_exec h
  · exact readX_applyReset s 0
  · exact hs
  · exact (exec_keeps_readX_zero he).trans hs
  · exact (exec_keeps_readX_zero he).trans hs

/-- Settles O37, by the cases of the step. -/
theorem noStepChangesTheImage : Obligations.NoStepChangesTheImage := by
  unfold Obligations.NoStepChangesTheImage
  intro s t h
  obtain ⟨himage, -⟩ := step_keeps_image_params h
  exact ⟨himage, congrArg Memory.size himage⟩

/-- Settles O40: the step of a terminal status is a stop, and reset goes to `Running`. -/
theorem terminalStatusesAreLeftOnlyByReset : Obligations.TerminalStatusesAreLeftOnlyByReset := by
  unfold Obligations.TerminalStatusesAreLeftOnlyByReset
  refine ⟨fun s t hended hr => ?_, fun s _ hr => ⟨_, step_of_reset s hr, rfl⟩, fun _ _ _ => halted_iff_calExit⟩
  obtain hs | ⟨r, hs⟩ := (ended_iff s).mp hended
  · simp [step_of_halted s hr hs]
  · simp [step_of_faulted s r hr hs]

/-- Settles O41: PUTI's own write, and the frame of the output stream for the others. -/
theorem onlyPutiWritesTheOutput : Obligations.OnlyPutiWritesTheOutput := by
  unfold Obligations.OnlyPutiWritesTheOutput
  refine fun i s t h => ⟨?_, exec_keeps_out h⟩
  rintro rfl
  cases h
  rfl

/-- Settles O48, by induction on the steps: the invariant holds at launch and every step keeps it. -/
theorem everyReachedStateMeetsTheInvariant : Obligations.EveryReachedStateMeetsTheInvariant := by
  unfold Obligations.EveryReachedStateMeetsTheInvariant
  intro p bytes answers s t k hp hanswers hlaunch hrun
  have hstart : InvWithLaunchOf s s := ⟨inv_launch hp hanswers hlaunch, rfl, rfl⟩
  obtain ⟨hinv, himage, hparams⟩ : InvWithLaunchOf s t :=
    runFor_keeps (InvWithLaunchOf s) (fun _ _ => step_keeps_invWithLaunchOf) k s t hstart hrun
  obtain ⟨-, rfl⟩ := launch_eq_some hlaunch
  exact ⟨hinv, himage, hparams⟩

/-- Settles O43: every register reads 0 in `State.reset`, and the other values stand there. -/
theorem resetStateIsAsTheSpecLists : Obligations.ResetStateIsAsTheSpecLists := by
  unfold Obligations.ResetStateIsAsTheSpecLists
  exact ⟨readX_reset, readD_reset, rfl, rfl, rfl⟩

/-- Settles O45: the reset state is the launch of the empty image. -/
theorem invariantHoldsAtReset : Obligations.InvariantHoldsAtReset := by
  unfold Obligations.InvariantHoldsAtReset
  have hlaunch : launch Params.default [] [] = some State.reset := rfl
  exact inv_launch (by decide) (by simp) hlaunch

end

/-! PROOFS: the memory's statement (20_memory.md). The two sides of the fetch check, and the fault as the step. -/

namespace Sys2Proof.Machine

/-! ### The fetch at and below the image's end (20_memory.md R52) -/

section Fetch
variable {s : State}

/-- At or above `L` nothing is fetched, whatever the image lists. -/
theorem fetchByte_of_size_le (h : Memory.size s.image ≤ s.pc) : fetchByte s = none := if_neg (Nat.not_lt.mpr h)

/-- Below `L` the fetch is the read of the image at `pc`. -/
theorem fetchByte_of_lt_size (h : s.pc < Memory.size s.image) : fetchByte s = Memory.read s.image s.pc := if_pos h

theorem step_of_size_le (hr : s.resetIn = false) (hs : s.status = .running) (h : Memory.size s.image ≤ s.pc) :
    step s = .next { s with status := .faulted .fetchOutOfRange } :=
  step_of_fetch_none s hr hs (fetchByte_of_size_le h)

/-- A canonical image has a byte at every address below `L`. -/
theorem exists_read_of_lt_size {size a : Nat} {img : List Host.Cell} (hw : Memory.wf size img = true)
    (h : a < Memory.size img) : ∃ b, Memory.read img a = some b :=
  Option.isSome_iff_exists.mp ((Memory.read_isSome size img a hw).trans (decide_eq_true h))

end Fetch

/-- The empty image fits every address space (20_memory.md R51). -/
theorem launch_nil (p : Params) (answers : List Answer) :
    launch p [] answers = some { State.reset with image := [], params := p, inbox := answers } :=
  if_pos (Nat.zero_le _)

end Sys2Proof.Machine

section
open Sys2Proof Sys2Proof.Machine

/-- Settles O6: the two sides of the fetch check; with `L = 0` the entry point is already outside the image. -/
theorem fetchFaultsOutsideTheImage : Obligations.FetchFaultsOutsideTheImage := by
  unfold Obligations.FetchFaultsOutsideTheImage
  refine ⟨fun s => step_of_size_le, fun s hw hlt => ?_, fun p answers => ?_⟩
  · obtain ⟨b, hb⟩ := exists_read_of_lt_size hw hlt
    exact ⟨b, (fetchByte_of_lt_size hlt).trans hb, hb⟩
  · exact ⟨_, launch_nil p answers, rfl, step_of_size_le rfl rfl (Nat.le_refl 0)⟩

end

/-! PROOFS: the encoding's statements (30_encoding.md). The decoder by opcode and the encoder's three formats as
inverses of the fields; pass 1, pass 2 and each kind of line of the assembler, said once each. -/

namespace Sys2Proof

/-! ### The decoder by opcode (30_encoding.md R72, R80) -/

theorem opField_cases (b : Byte) :
    (opField b).toNat = 0 ∨ (opField b).toNat = 1 ∨ (opField b).toNat = 2 ∨ (opField b).toNat = 3 ∨
      (opField b).toNat = 4 ∨ (opField b).toNat = 5 ∨ (opField b).toNat = 6 ∨ (opField b).toNat = 7 := by
  have := (opField b).isLt
  omega

section Rows
variable {m : SyscallMap} {b : Byte}

/-- The halt byte is of format C. -/
theorem ne_haltByte_of_opField (h : (opField b).toNat ≠ 7) : b ≠ Config.haltByte := by
  rintro rfl
  exact h rfl

theorem decodeByteWith_set (h : (opField b).toNat = 0) : decodeByteWith m b = .set (selField b) (lowField b) := by
  simp [decodeByteWith, ne_haltByte_of_opField, h]

theorem decodeByteWith_mov (h : (opField b).toNat = 1) : decodeByteWith m b = .mov (selField b) (regField b) := by
  simp [decodeByteWith, ne_haltByte_of_opField, h]

theorem decodeByteWith_get (h : (opField b).toNat = 2) : decodeByteWith m b = .get (selField b) (regField b) := by
  simp [decodeByteWith, ne_haltByte_of_opField, h]

theorem decodeByteWith_cmp (h : (opField b).toNat = 3) : decodeByteWith m b = .cmp (selField b) (regField b) := by
  simp [decodeByteWith, ne_haltByte_of_opField, h]

theorem decodeByteWith_jmp (h : (opField b).toNat = 4) : decodeByteWith m b = .jmp (dispField b) := by
  simp [decodeByteWith, ne_haltByte_of_opField, h]

theorem decodeByteWith_jie (h : (opField b).toNat = 5) : decodeByteWith m b = .jie (dispField b) := by
  simp [decodeByteWith, ne_haltByte_of_opField, h]

theorem decodeByteWith_jig (h : (opField b).toNat = 6) : decodeByteWith m b = .jig (dispField b) := by
  simp [decodeByteWith, ne_haltByte_of_opField, h]

/-- Under a map the source allows, the halt check and the map agree on code 0 (30_encoding.md R75, R77). -/
theorem decodeByteWith_call (hm : m.wf = true) (h : (opField b).toNat = 7) :
    decodeByteWith m b = decodeCall m (codeField b) := by
  by_cases hb : b = Config.haltByte
  · subst hb
    simp only [SyscallMap.wf, Bool.and_eq_true, beq_iff_eq] at hm
    obtain ⟨⟨⟨hzero, -⟩, -⟩, -⟩ := hm
    exact (congrArg Syscall.toInstr hzero).symm
  · exact decodeByteWith_of_opField hb h

theorem decodeCall_thirteen {code : BitVec 5} (h : code.toNat = 13) : decodeCall m code = .calReserved13 := by
  simp [decodeCall, h]

theorem decodeCall_of_lt_sixteen {code : BitVec 5} (hlo : 14 ≤ code.toNat) (hhi : code.toNat < 16) :
    decodeCall m code = .calReserved14 (BitVec.ofNat 1 code.toNat) := by
  have hbits : code.extractLsb' 0 1 = BitVec.ofNat 1 code.toNat := rfl
  rw [decodeCall, dif_neg (by omega), if_neg (by omega), if_pos hhi, hbits]

theorem decodeCall_of_sixteen_le {code : BitVec 5} (h : 16 ≤ code.toNat) :
    decodeCall m code = .calReserved16 (BitVec.ofNat 4 code.toNat) := by
  have hbits : code.extractLsb' 0 4 = BitVec.ofNat 4 code.toNat := rfl
  rw [decodeCall, dif_neg (by omega), if_neg (by omega), if_neg (by omega), hbits]

end Rows

/-! ### The fields of a byte as values (30_encoding.md R71, R73, R74) -/

theorem selField_eq (b : Byte) : selField b = Fin.ofNat 2 (b.toNat / 16) := Fin.ext (selField_val b)

theorem lowField_eq (b : Byte) : lowField b = BitVec.ofNat 4 b.toNat := rfl

theorem regField_eq (b : Byte) : regField b = Fin.ofNat 16 b.toNat := Fin.ext (regField_val b)

/-- A branch byte with the sign bit clear stands in the low half of its opcode's range. -/
theorem dispField_of_forward {b : Byte} (base : Int) (hbase : base % 32 = 0) (hlo : base ≤ b.toNat)
    (hhi : b.toNat < base + 16) : dispField b = b.toNat - base := by
  rw [dispField_eq, if_neg (by omega)]
  omega

/-- A branch byte with the sign bit set stands in the high half, whose first byte is minus zero. -/
theorem dispField_of_backward {b : Byte} (base : Int) (hbase : base % 32 = 16) (hlo : base ≤ b.toNat)
    (hhi : b.toNat < base + 16) : dispField b = base - b.toNat := by
  rw [dispField_eq, if_pos (by omega)]
  omega

/-! ### The three encoding formulas as numbers, and the fields read back from them (30_encoding.md R82) -/

theorem dispInRange_iff (d : Int) : dispInRange d = true ↔ -15 ≤ d ∧ d ≤ 15 := by
  simp [dispInRange]

theorem encM_toNat {op s n : Nat} (ho : op < 8) (hs : s < 2) (hn : n < 16) :
    (encM op s n).toNat = op * 32 + s * 16 + n := by
  rw [encM, BitVec.toNat_ofNat]
  omega

theorem encB_toNat {op : Nat} {d : Int} (ho : op < 8) (hd : dispInRange d = true) :
    (encB op d).toNat = op * 32 + (if d < 0 then 16 else 0) + d.natAbs := by
  rw [dispInRange_iff] at hd
  rw [encB, BitVec.toNat_ofNat]
  split <;> omega

theorem encC_toNat {code : Nat} (h : code < 32) : (encC code).toNat = 224 + code := by
  rw [encC, BitVec.toNat_ofNat]
  omega

section ReadBack
variable {op : Nat}

theorem selField_encM (ho : op < 8) (s : Dmr) {n : Nat} (hn : n < 16) : selField (encM op s.val n) = s := by
  apply Fin.ext
  rw [selField_val, encM_toNat ho s.isLt hn]
  omega

theorem lowField_encM (ho : op < 8) (s : Dmr) (imm : BitVec 4) : lowField (encM op s.val imm.toNat) = imm := by
  apply BitVec.eq_of_toNat_eq
  rw [lowField_toNat, encM_toNat ho s.isLt imm.isLt]
  omega

theorem regField_encM (ho : op < 8) (s : Dmr) (n : Reg) : regField (encM op s.val n.val) = n := by
  apply Fin.ext
  rw [regField_val, encM_toNat ho s.isLt n.isLt]
  omega

theorem dispField_encB (ho : op < 8) {d : Int} (hd : dispInRange d = true) : dispField (encB op d) = d := by
  have hrange := (dispInRange_iff d).mp hd
  rw [dispField_eq, encB_toNat ho hd]
  by_cases h : d < 0
  · rw [if_pos h, if_pos (by omega)]
    omega
  · rw [if_neg h, if_neg (by omega)]
    omega

theorem codeField_encC {code : Nat} (h : code < 32) : (codeField (encC code)).toNat = code := by
  rw [codeField_toNat, encC_toNat h]
  omega

end ReadBack

/-! ### A byte is the encoding of its fields (30_encoding.md R82) -/

section OfFields
variable {b : Byte} {op : Nat}

theorem encM_of_fields (h : (opField b).toNat = op) : encM op (selField b).val (lowField b).toNat = b := by
  rw [opField_toNat] at h
  apply BitVec.eq_of_toNat_eq
  rw [encM_toNat (by omega) (selField b).isLt (lowField b).isLt, selField_val, lowField_toNat]
  omega

/-- Every branch byte but minus zero is the encoding of its displacement. -/
theorem encB_of_fields (h : (opField b).toNat = op) (hminus : b.toNat % 32 ≠ 16) : encB op (dispField b) = b := by
  rw [opField_toNat] at h
  apply BitVec.eq_of_toNat_eq
  rw [encB_toNat (by omega) (dispField_inRange b), dispField_eq]
  split <;> split <;> omega

theorem encC_of_fields (h : (opField b).toNat = 7) : encC (codeField b).toNat = b := by
  apply BitVec.eq_of_toNat_eq
  rw [encC_toNat (codeField b).isLt, toNat_of_opField h]

end OfFields

/-! ### The code of a name (30_encoding.md R75) -/

section Codes
variable {m : SyscallMap}

theorem syscallMap_nodup (hm : m.wf = true) : m.toList.Nodup := by
  simp only [SyscallMap.wf, Bool.and_eq_true, decide_eq_true_eq] at hm
  obtain ⟨⟨-, hnodup⟩, -⟩ := hm
  exact hnodup

theorem mem_syscallMap (hm : m.wf = true) (n : Syscall) : n ∈ m.toList := by
  simp only [SyscallMap.wf, Bool.and_eq_true, List.all_eq_true, List.contains_iff_mem] at hm
  obtain ⟨-, hall⟩ := hm
  exact hall n (by cases n <;> decide)

theorem codeOf_lt_thirteen (hm : m.wf = true) (n : Syscall) : m.codeOf n < 13 := by
  have h := List.idxOf_lt_length_of_mem (mem_syscallMap hm n)
  rwa [m.length_toList] at h

theorem getElem_codeOf (hm : m.wf = true) (n : Syscall) : m[m.codeOf n]'(codeOf_lt_thirteen hm n) = n :=
  List.getElem_idxOf (List.idxOf_lt_length_of_mem (mem_syscallMap hm n))

theorem codeOf_getElem (hm : m.wf = true) {k : Nat} (hk : k < 13) : m.codeOf m[k] = k :=
  (syscallMap_nodup hm).idxOf_getElem k (by rwa [m.length_toList])

theorem encodeByteWith_toInstr (m : SyscallMap) (n : Syscall) :
    encodeByteWith m n.toInstr = encC (m.codeOf n) := by cases n <;> rfl

/-- The byte of a code below 32 is read by format C. -/
theorem decodeByteWith_encC (hm : m.wf = true) {code : Nat} (h : code < 32) :
    decodeByteWith m (encC code) = decodeCall m (codeField (encC code)) :=
  decodeByteWith_call hm (Laws.OpcodeBits.opField_encC code h)

theorem decodeByteWith_codeOf (hm : m.wf = true) (n : Syscall) : decodeByteWith m (encC (m.codeOf n)) = n.toInstr := by
  have hlt := codeOf_lt_thirteen hm n
  have hcode : (codeField (encC (m.codeOf n))).toNat = m.codeOf n := codeField_encC (by omega)
  rw [decodeByteWith_encC hm (by omega), decodeCall_of_lt m _ (by omega)]
  simp only [hcode, getElem_codeOf hm]

theorem encodeByteWith_decodeCall (hm : m.wf = true) (code : BitVec 5) :
    encodeByteWith m (decodeCall m code) = encC code.toNat := by
  have hlt := code.isLt
  by_cases h13 : code.toNat < 13
  · rw [decodeCall_of_lt m code h13, encodeByteWith_toInstr, codeOf_getElem hm h13]
  by_cases heq : code.toNat = 13
  · rw [decodeCall_thirteen heq, heq]
    rfl
  by_cases h16 : code.toNat < 16
  · rw [decodeCall_of_lt_sixteen (by omega) h16, encodeByteWith, BitVec.toNat_ofNat]
    congr 1
    omega
  · rw [decodeCall_of_sixteen_le (by omega), encodeByteWith, BitVec.toNat_ofNat]
    congr 1
    omega

end Codes

/-! ### Round trips (30_encoding.md R82) -/

section RoundTrip
variable {m : SyscallMap}

/-- Every well-formed instruction comes back from its byte. -/
theorem decodeByteWith_encodeByteWith (hm : m.wf = true) : ∀ i : Instr, i.wf = true →
    decodeByteWith m (encodeByteWith m i) = i
  | .set s imm, h => by
    rw [decodeByteWith_set (Laws.OpcodeBits.set s imm m h), encodeByteWith, selField_encM (by decide) s imm.isLt,
      lowField_encM (by decide)]
  | .mov s n, h => by
    rw [decodeByteWith_mov (Laws.OpcodeBits.mov s n m h), encodeByteWith, selField_encM (by decide) s n.isLt,
      regField_encM (by decide)]
  | .get s n, h => by
    rw [decodeByteWith_get (Laws.OpcodeBits.get s n m h), encodeByteWith, selField_encM (by decide) s n.isLt,
      regField_encM (by decide)]
  | .cmp s n, h => by
    rw [decodeByteWith_cmp (Laws.OpcodeBits.cmp s n m h), encodeByteWith, selField_encM (by decide) s n.isLt,
      regField_encM (by decide)]
  | .jmp d, h => by
    rw [decodeByteWith_jmp (Laws.OpcodeBits.jmp d m h), encodeByteWith, dispField_encB (by decide) h]
  | .jie d, h => by
    rw [decodeByteWith_jie (Laws.OpcodeBits.jie d m h), encodeByteWith, dispField_encB (by decide) h]
  | .jig d, h => by
    rw [decodeByteWith_jig (Laws.OpcodeBits.jig d m h), encodeByteWith, dispField_encB (by decide) h]
  | .calExit, _ => decodeByteWith_codeOf hm .exit
  | .calAdd, _ => decodeByteWith_codeOf hm .add
  | .calSub, _ => decodeByteWith_codeOf hm .sub
  | .calAnd, _ => decodeByteWith_codeOf hm .and
  | .calOr, _ => decodeByteWith_codeOf hm .or
  | .calXor, _ => decodeByteWith_codeOf hm .xor
  | .calNot, _ => decodeByteWith_codeOf hm .not
  | .calInc, _ => decodeByteWith_codeOf hm .inc
  | .calDec, _ => decodeByteWith_codeOf hm .dec
  | .calPc, _ => decodeByteWith_codeOf hm .pc
  | .calRet, _ => decodeByteWith_codeOf hm .ret
  | .calGeti, _ => decodeByteWith_codeOf hm .geti
  | .calPuti, _ => decodeByteWith_codeOf hm .puti
  | .calReserved13, _ => by
    rw [encodeByteWith, decodeByteWith_encC hm (by decide), decodeCall_thirteen (codeField_encC (by decide))]
  | .calReserved14 c, _ => by
    have hcode : (codeField (encC (14 + c.toNat))).toNat = 14 + c.toNat := codeField_encC (by omega)
    rw [encodeByteWith, decodeByteWith_encC hm (by omega), decodeCall_of_lt_sixteen (by omega) (by omega), hcode]
    congr 1
    bv_omega
  | .calReserved16 c, _ => by
    have hcode : (codeField (encC (16 + c.toNat))).toNat = 16 + c.toNat := codeField_encC (by omega)
    rw [encodeByteWith, decodeByteWith_encC hm (by omega), decodeCall_of_sixteen_le (by omega), hcode]
    congr 1
    bv_omega

/-- Every byte but the three minus-zero branches comes back from its instruction. -/
theorem encodeByteWith_decodeByteWith (hm : m.wf = true) {b : Byte} (hjmp : b ≠ 0x90#8) (hjie : b ≠ 0xB0#8)
    (hjig : b ≠ 0xD0#8) : encodeByteWith m (decodeByteWith m b) = b := by
  have hreg : (regField b).val = (lowField b).toNat := rfl
  have hminus (hlo : 4 ≤ (opField b).toNat) (hhi : (opField b).toNat < 7) : b.toNat % 32 ≠ 16 := by
    rw [opField_toNat] at hlo hhi
    bv_omega
  obtain h | h | h | h | h | h | h | h := opField_cases b
  · rw [decodeByteWith_set h, encodeByteWith, encM_of_fields h]
  · rw [decodeByteWith_mov h, encodeByteWith, hreg, encM_of_fields h]
  · rw [decodeByteWith_get h, encodeByteWith, hreg, encM_of_fields h]
  · rw [decodeByteWith_cmp h, encodeByteWith, hreg, encM_of_fields h]
  · rw [decodeByteWith_jmp h, encodeByteWith, encB_of_fields h (hminus (by omega) (by omega))]
  · rw [decodeByteWith_jie h, encodeByteWith, encB_of_fields h (hminus (by omega) (by omega))]
  · rw [decodeByteWith_jig h, encodeByteWith, encB_of_fields h (hminus (by omega) (by omega))]
  · rw [decodeByteWith_call hm h, encodeByteWith_decodeCall hm, encC_of_fields h]

end RoundTrip

end Sys2Proof

namespace Sys2Proof.Machine

/-! ### Pass 1 (30_encoding.md R87) -/

section LabelTable
variable {t t' : LabelTable} {name : Text} {v : Nat}

theorem find_append_of_find (h : t.find name = some v) : LabelTable.find (t ++ t') name = some v := by
  rw [LabelTable.find] at h
  rw [LabelTable.find, List.lookup_append, h, Option.some_or]

theorem find_append_self (h : t.find name = none) : LabelTable.find (t ++ [(name, v)]) name = some v := by
  rw [LabelTable.find] at h
  simp [LabelTable.find, List.lookup_append, h]

end LabelTable

section PassOne
variable {pos seen : Nat} {table result : LabelTable} {l : Text} {rest : List Text}

theorem collectLabels_of_not_label (hl : isLabelLine l = false) :
    collectLabels pos seen table (l :: rest) = collectLabels (pos + 1) seen table rest := by
  simp [collectLabels, hl]

/-- A label line succeeds only for a new name, which it puts into the table with the count of instruction lines. -/
theorem collectLabels_of_label (hl : isLabelLine l = true)
    (h : collectLabels pos seen table (l :: rest) = .ok result) :
    table.find (labelName l) = none ∧
      collectLabels (pos + 1) (seen + 1) (table ++ [(labelName l, pos - seen)]) rest = .ok result := by
  rw [collectLabels, if_pos hl] at h
  split at h
  · cases h
  · next hnone => exact ⟨hnone, h⟩

/-- Pass 1 over a text's first lines, and from their table over the others. -/
theorem collectLabels_append {first : List Text} (h : collectLabels pos seen table (first ++ rest) = .ok result) :
    ∃ mid, collectLabels pos seen table first = .ok mid ∧
      collectLabels (pos + first.length) (seen + (first.filter isLabelLine).length) mid rest = .ok result := by
  induction first generalizing pos seen table with
  | nil => exact ⟨table, rfl, h⟩
  | cons l first ih =>
    cases hl : isLabelLine l with
    | false =>
      rw [List.cons_append, collectLabels_of_not_label hl] at h
      simpa [collectLabels_of_not_label hl, List.filter_cons, hl, Nat.add_assoc, Nat.add_comm 1] using ih h
    | true =>
      obtain ⟨hnone, h⟩ := collectLabels_of_label hl h
      simpa [collectLabels, hnone, List.filter_cons, hl, Nat.add_assoc, Nat.add_comm 1] using ih h

/-- An entry of the table stays as it is. -/
theorem collectLabels_keeps_find {lines : List Text} {name : Text} {v : Nat} (hv : table.find name = some v)
    (h : collectLabels pos seen table lines = .ok result) : result.find name = some v := by
  induction lines generalizing pos seen table with
  | nil =>
    cases h
    exact hv
  | cons l lines ih =>
    cases hl : isLabelLine l with
    | false =>
      rw [collectLabels_of_not_label hl] at h
      exact ih hv h
    | true =>
      obtain ⟨-, h⟩ := collectLabels_of_label hl h
      exact ih (find_append_of_find hv) h

end PassOne

/-- A label stands for the number of instruction lines before it. -/
theorem find_labelName {before after : List Text} {line : Text} {table : LabelTable} (hl : isLabelLine line = true)
    (h : collectLabels 0 0 [] (before ++ line :: after) = .ok table) :
    table.find (labelName line) = some (before.filter (fun l => !isLabelLine l)).length := by
  obtain ⟨mid, -, h⟩ := collectLabels_append h
  obtain ⟨hnone, h⟩ := collectLabels_of_label hl h
  have hcount : 0 + before.length - (0 + (before.filter isLabelLine).length) =
      (before.filter (fun l => !isLabelLine l)).length := by
    have := before.length_eq_length_filter_add isLabelLine
    omega
  rw [hcount] at h
  exact collectLabels_keeps_find (find_append_self hnone) h

/-! ### The values a token can give (30_encoding.md R89, R90) -/

theorem manipulationOp_lt {m : Text} {op : Nat} (h : manipulationOp m = some op) : op < 4 := by
  unfold manipulationOp at h
  split_ifs at h <;> cases h <;> decide

theorem branchOp_bounds {m : Text} {op : Nat} (h : branchOp m = some op) : 4 ≤ op ∧ op < 7 := by
  unfold branchOp at h
  split_ifs at h <;> cases h <;> decide

theorem dmrToken_lt {t : Text} {sel : Nat} (h : dmrToken t = some sel) : sel < 2 := by
  unfold dmrToken at h
  split_ifs at h <;> cases h <;> decide

theorem nibbleLiteral_lt {t : Text} {n : Nat} (h : nibbleLiteral t = some n) : n < 16 := by
  unfold nibbleLiteral at h
  split at h
  · split at h
    · next hlt =>
      cases h
      exact hlt
    · cases h
  · cases h

theorem thirdOperand_lt {op : Nat} {t : Text} {n : Nat} (h : thirdOperand op t = some n) : n < 16 := by
  unfold thirdOperand at h
  split at h
  · exact nibbleLiteral_lt h
  · split at h
    · cases h
    · exact nibbleLiteral_lt h

/-! ### The byte of each kind of line (30_encoding.md R88 to R91) -/

section Lines
variable {labels : LabelTable} {c : Nat} {b : Byte}

theorem assembleManipulation_ok {m r t : Text} (h : assembleManipulation m r t = .ok b) :
    ∃ op sel n, op < 4 ∧ sel < 2 ∧ n < 16 ∧ ¬(op = 1 ∧ n = 0) ∧ b = encM op sel n := by
  unfold assembleManipulation at h
  split at h
  · cases h
  next op hop =>
  split at h
  · cases h
  next sel hsel =>
  split at h
  · cases h
  next n hn =>
  split at h
  · cases h
  next hprot =>
  cases h
  exact ⟨op, sel, n, manipulationOp_lt hop, dmrToken_lt hsel, thirdOperand_lt hn, hprot, rfl⟩

theorem assembleBranch_ok {op : Nat} {name : Text} (h : assembleBranch labels c op name = .ok b) :
    ∃ target, labels.find name = some target ∧ dispInRange ((target : Int) - c) = true ∧
      b = encB op ((target : Int) - c) := by
  unfold assembleBranch at h
  split at h
  · cases h
  next target ht =>
  split at h
  · next hd =>
    cases h
    exact ⟨target, ht, hd, rfl⟩
  · cases h

theorem assembleCall_ok {t : Text} (h : assembleCall t = .ok b) : ∃ code < 13, b = encC code := by
  unfold assembleCall at h
  split at h
  · cases h
  next code _ =>
  split at h
  · next hlt =>
    cases h
    exact ⟨code, hlt, rfl⟩
  · cases h

theorem assembleTwo_of_branchOp {op : Nat} {m name : Text} (hop : branchOp m = some op) :
    assembleTwo labels c m name = assembleBranch labels c op name := by
  simp [assembleTwo, hop]

theorem assembleLine_of_branchOp {l m name : Text} {op : Nat} (ht : tokens l = [m, name]) (hop : branchOp m = some op) :
    assembleLine labels c l = assembleBranch labels c op name := by
  rw [← assembleTwo_of_branchOp hop]
  simp [assembleLine, ht]

/-- The bytes the assembler can emit, by format. -/
theorem assembleLine_ok {l : Text} (h : assembleLine labels c l = .ok b) :
    (∃ op sel n, op < 4 ∧ sel < 2 ∧ n < 16 ∧ ¬(op = 1 ∧ n = 0) ∧ b = encM op sel n) ∨
    (∃ op d, 4 ≤ op ∧ op < 7 ∧ dispInRange d = true ∧ b = encB op d) ∨
    (∃ code < 13, b = encC code) := by
  unfold assembleLine at h
  split at h
  · next m t _ =>
    cases hop : branchOp m with
    | some op =>
      rw [assembleTwo_of_branchOp hop] at h
      obtain ⟨target, -, hd, hb⟩ := assembleBranch_ok h
      obtain ⟨hlo, hhi⟩ := branchOp_bounds hop
      exact .inr (.inl ⟨op, _, hlo, hhi, hd, hb⟩)
    | none =>
      rw [assembleTwo, hop] at h
      simp only at h
      split at h
      · exact .inr (.inr (assembleCall_ok h))
      · cases h
  · exact .inl (assembleManipulation_ok h)
  · cases h

end Lines

/-! ### The bytes the assembler may emit (30_encoding.md R74, R76, R78) -/

/-- Not MOV to R0, not a minus-zero branch, not a reserved code. -/
abbrev Emittable (b : Byte) : Prop :=
  b ≠ 0x20#8 ∧ b ≠ 0x30#8 ∧ b ≠ 0x90#8 ∧ b ≠ 0xB0#8 ∧ b ≠ 0xD0#8 ∧ b.toNat < 0xED

theorem emittable_iff (b : Byte) : Emittable b ↔ b.toNat ≠ 0x20 ∧ b.toNat ≠ 0x30 ∧ b.toNat ≠ 0x90 ∧
    b.toNat ≠ 0xB0 ∧ b.toNat ≠ 0xD0 ∧ b.toNat < 0xED := by
  simp [Emittable, ← BitVec.toNat_inj]

theorem emittable_encM {op sel n : Nat} (ho : op < 4) (hs : sel < 2) (hn : n < 16) (hprot : ¬(op = 1 ∧ n = 0)) :
    Emittable (encM op sel n) := by
  rw [emittable_iff, encM_toNat (by omega) hs hn]
  omega

theorem emittable_encB {op : Nat} {d : Int} (hlo : 4 ≤ op) (hhi : op < 7) (hd : dispInRange d = true) :
    Emittable (encB op d) := by
  have hrange := (dispInRange_iff d).mp hd
  rw [emittable_iff, encB_toNat (by omega) hd]
  split <;> omega

theorem emittable_encC {code : Nat} (h : code < 13) : Emittable (encC code) := by
  rw [emittable_iff, encC_toNat (by omega)]
  omega

theorem emittable_of_assembleLine {labels : LabelTable} {c : Nat} {l : Text} {b : Byte}
    (h : assembleLine labels c l = .ok b) : Emittable b := by
  obtain ⟨op, sel, n, ho, hs, hn, hprot, rfl⟩ | ⟨op, d, hlo, hhi, hd, rfl⟩ | ⟨code, hcode, rfl⟩ := assembleLine_ok h
  · exact emittable_encM ho hs hn hprot
  · exact emittable_encB hlo hhi hd
  · exact emittable_encC hcode

/-! ### Pass 2 and the whole text (30_encoding.md R88, R92) -/

section PassTwo
variable {labels : LabelTable} {c : Nat} {bytes : List Byte}

theorem emitFrom_of_label {l : Text} {rest : List Text} (hl : isLabelLine l = true) :
    emitFrom labels c (l :: rest) = emitFrom labels c rest := by
  rw [emitFrom, if_pos hl]

theorem emitFrom_of_not_label {l : Text} {rest : List Text} (hl : isLabelLine l = false)
    (h : emitFrom labels c (l :: rest) = .ok bytes) :
    ∃ b bs, assembleLine labels c l = .ok b ∧ emitFrom labels (c + 1) rest = .ok bs ∧ bytes = b :: bs := by
  rw [emitFrom, if_neg (by simp [hl])] at h
  split at h
  · cases h
  next b hb =>
  split at h
  · cases h
  next bs hbs =>
  cases h
  exact ⟨b, bs, hb, hbs, rfl⟩

/-- Pass 2 emits one byte per instruction line, each the line's own at the line's index. -/
theorem emitFrom_ok {lines : List Text} (h : emitFrom labels c lines = .ok bytes) :
    bytes.length = (lines.filter (fun l => !isLabelLine l)).length ∧
      ∀ (k : Nat) (line : Text) (b : Byte), (lines.filter (fun l => !isLabelLine l))[k]? = some line →
        bytes[k]? = some b → assembleLine labels (c + k) line = .ok b := by
  induction lines generalizing c bytes with
  | nil =>
    cases h
    exact ⟨rfl, by simp⟩
  | cons l lines ih =>
    cases hl : isLabelLine l with
    | true =>
      rw [emitFrom_of_label hl] at h
      simpa [List.filter_cons, hl] using ih h
    | false =>
      obtain ⟨b, bs, hb, hbs, rfl⟩ := emitFrom_of_not_label hl h
      obtain ⟨hlength, hlines⟩ := ih hbs
      have hcons : (l :: lines).filter (fun l => !isLabelLine l) = l :: lines.filter (fun l => !isLabelLine l) := by
        simp [hl]
      rw [hcons]
      refine ⟨congrArg Nat.succ hlength, fun k line b' hline hb' => ?_⟩
      cases k with
      | zero =>
        cases hline
        cases hb'
        exact hb
      | succ k =>
        rw [← Nat.add_assoc, Nat.add_right_comm]
        exact hlines k line b' hline hb'

/-- A text that assembles passed both passes; its image is the bytes of its instruction lines and the halt byte. -/
theorem assembleText_ok {src : Text} {image : List Byte} (h : assembleText src = .ok image) :
    ∃ labels body, collectLabels 0 0 [] (sourceLines src) = .ok labels ∧ image = body ++ [Config.haltByte] ∧
      body.length = (instructionLines src).length ∧
      ∀ (k : Nat) (line : Text) (b : Byte), (instructionLines src)[k]? = some line → body[k]? = some b →
        assembleLine labels k line = .ok b := by
  unfold assembleText at h
  split at h
  · cases h
  next labels hlabels =>
  split at h
  · cases h
  next body hbody =>
  cases h
  obtain ⟨hlength, hlines⟩ := emitFrom_ok hbody
  exact ⟨labels, body, hlabels, rfl, hlength, fun k => by simpa [instructionLines] using hlines k⟩

end PassTwo

/-! ### The listing by opcode (30_encoding.md R95) -/

section Listing
variable {b : Byte}

theorem disassemble_set (h : (opField b).toNat = 0) : disassemble b = listManipulation "set" "" b := by
  simp [disassemble, disassembleWith, ne_haltByte_of_opField, h]

theorem disassemble_mov (h : (opField b).toNat = 1) : disassemble b = listManipulation "mov" "$" b := by
  simp [disassemble, disassembleWith, ne_haltByte_of_opField, h]

theorem disassemble_get (h : (opField b).toNat = 2) : disassemble b = listManipulation "get" "$" b := by
  simp [disassemble, disassembleWith, ne_haltByte_of_opField, h]

theorem disassemble_cmp (h : (opField b).toNat = 3) : disassemble b = listManipulation "cmp" "$" b := by
  simp [disassemble, disassembleWith, ne_haltByte_of_opField, h]

theorem disassemble_jmp (h : (opField b).toNat = 4) : disassemble b = listBranch "jmp" b := by
  simp [disassemble, disassembleWith, ne_haltByte_of_opField, h]

theorem disassemble_jie (h : (opField b).toNat = 5) : disassemble b = listBranch "jie" b := by
  simp [disassemble, disassembleWith, ne_haltByte_of_opField, h]

theorem disassemble_jig (h : (opField b).toNat = 6) : disassemble b = listBranch "jig" b := by
  simp [disassemble, disassembleWith, ne_haltByte_of_opField, h]

theorem listManipulation_encM {op : Nat} (ho : op < 8) (name sigil : String) (s : Dmr) (n : Fin 16) :
    listManipulation name sigil (encM op s.val n.val) =
      name ++ " #" ++ listNumber s.val ++ (" " ++ sigil) ++ listNumber n.val := by
  have hlow : (lowField (encM op s.val n.val)).toNat = n.val := congrArg Fin.val (regField_encM ho s n)
  rw [listManipulation, selField_encM ho s n.isLt, hlow]
  simp only [String.append_assoc]

theorem listBranch_forward (name : String) {base : Nat} (hbase : base % 32 = 0) (k : Fin 16) :
    listBranch name (BitVec.ofNat 8 (base + k.val)) = name ++ " .+" ++ listNumber k.val := by
  have hnat : (BitVec.ofNat 8 (base + k.val)).toNat % 32 = k.val := by
    rw [BitVec.toNat_ofNat]
    omega
  have hlow : (BitVec.ofNat 8 (base + k.val)).toNat % 16 = k.val := by omega
  rw [listBranch, signBit_eq, decide_eq_false (by omega), lowField_toNat, hlow]
  rfl

/-- With the sign bit set the listing shows `.-k`, minus zero included. -/
theorem listBranch_backward (name : String) {base : Nat} (hbase : base % 32 = 16) (k : Fin 16) :
    listBranch name (BitVec.ofNat 8 (base + k.val)) = name ++ " .-" ++ listNumber k.val := by
  have hnat : (BitVec.ofNat 8 (base + k.val)).toNat % 32 = 16 + k.val := by
    rw [BitVec.toNat_ofNat]
    omega
  have hlow : (BitVec.ofNat 8 (base + k.val)).toNat % 16 = k.val := by omega
  rw [listBranch, signBit_eq, decide_eq_true (by omega), lowField_toNat, hlow]
  rfl

end Listing

end Sys2Proof.Machine

section
open Sys2Proof Sys2Proof.Machine Sys2Proof.Laws.OpcodeBits

/-- Settles O2: both round trips by opcode; the three minus-zero bytes evaluate under every map. -/
theorem decodeAndEncodeAgree : Obligations.DecodeAndEncodeAgree := by
  unfold Obligations.DecodeAndEncodeAgree
  refine ⟨fun m hm => ⟨fun i hi => ?_, fun b => encodeByteWith_decodeByteWith hm, ⟨rfl, rfl⟩, ⟨rfl, rfl⟩, ⟨rfl, rfl⟩,
    decodeByteWith_wf m⟩, fun op s n => encM_toNat, fun op d ho hlo hhi => ?_, fun code => encC_toNat⟩
  · rw [decodeWith, decodeByteWith_encodeByteWith hm i hi]
  · exact encB_toNat ho ((dispInRange_iff d).mpr ⟨hlo, hhi⟩)

/-- Settles O3: the byte's range fixes its opcode and, for a branch, its sign bit; the row's equation does the rest. -/
theorem everyByteDecodesToItsRow : Obligations.EveryByteDecodesToItsRow := by
  unfold Obligations.EveryByteDecodesToItsRow
  intro m hm b
  have hop := opField_toNat b
  have hcode := codeField_toNat b
  refine ⟨?set, ?mov, ?get, ?cmp, ?jmpForward, ?jmpBackward, ?jieForward, ?jieBackward, ?jigForward, ?jigBackward,
    ?halt, ?call, ?reserved13, ?reserved14, ?reserved16⟩
  case set => exact fun _ => by rw [decodeByteWith_set (by omega), selField_eq, lowField_eq]
  case mov => exact fun _ _ => by rw [decodeByteWith_mov (by omega), selField_eq, regField_eq]
  case get => exact fun _ _ => by rw [decodeByteWith_get (by omega), selField_eq, regField_eq]
  case cmp => exact fun _ _ => by rw [decodeByteWith_cmp (by omega), selField_eq, regField_eq]
  case jmpForward => exact fun _ _ => by rw [decodeByteWith_jmp (by omega), dispField_of_forward 0x80] <;> omega
  case jmpBackward => exact fun _ _ => by rw [decodeByteWith_jmp (by omega), dispField_of_backward 0x90] <;> omega
  case jieForward => exact fun _ _ => by rw [decodeByteWith_jie (by omega), dispField_of_forward 0xA0] <;> omega
  case jieBackward => exact fun _ _ => by rw [decodeByteWith_jie (by omega), dispField_of_backward 0xB0] <;> omega
  case jigForward => exact fun _ _ => by rw [decodeByteWith_jig (by omega), dispField_of_forward 0xC0] <;> omega
  case jigBackward => exact fun _ _ => by rw [decodeByteWith_jig (by omega), dispField_of_backward 0xD0] <;> omega
  case halt =>
    intro h
    have hb : b = Config.haltByte := BitVec.eq_of_toNat_eq h
    rw [hb, decodeByteWith, if_pos rfl]
  case call =>
    intro hlo hhi
    have hlt : (codeField b).toNat < 13 := by omega
    refine ⟨m[(codeField b).toNat], fun hexit => ?_, ?_, ?_⟩
    · have hzero := code_eq_zero_of_exit hm hlt hexit
      omega
    · rw [codeOf_getElem hm hlt]
      omega
    · rw [decodeByteWith_call hm (by omega), decodeCall_of_lt]
  case reserved13 => exact fun _ => by rw [decodeByteWith_call hm (by omega), decodeCall_thirteen (by omega)]
  case reserved14 =>
    intro hlo hhi
    rw [decodeByteWith_call hm (by omega), decodeCall_of_lt_sixteen (by omega) (by omega)]
    congr 1
    bv_omega
  case reserved16 =>
    intro hlo
    rw [decodeByteWith_call hm (by omega), decodeCall_of_sixteen_le (by omega)]
    congr 1
    bv_omega

/-- Settles O49: pass 2 emits a byte per instruction line, and the halt byte follows. -/
theorem assembledImageEndsInTheHaltByte : Obligations.AssembledImageEndsInTheHaltByte := by
  unfold Obligations.AssembledImageEndsInTheHaltByte
  intro src image h
  obtain ⟨labels, body, -, himage, hlength, -⟩ := assembleText_ok h
  exact ⟨body, himage, hlength⟩

/-- Settles O50: every byte but the halt byte is the byte of a line, and each kind of line emits an emittable one. -/
theorem assemblerNeverEmitsForbiddenBytes : Obligations.AssemblerNeverEmitsForbiddenBytes := by
  unfold Obligations.AssemblerNeverEmitsForbiddenBytes
  intro src image h
  obtain ⟨labels, body, -, rfl, hlength, hlines⟩ := assembleText_ok h
  have hbody : ∀ b ∈ body, Emittable b := by
    intro b hb
    obtain ⟨k, hk⟩ := List.mem_iff_getElem?.mp hb
    obtain ⟨hlt, -⟩ := List.getElem?_eq_some_iff.mp hk
    exact emittable_of_assembleLine (hlines k _ b (List.getElem?_eq_getElem (hlength ▸ hlt)) hk)
  have hhalt : Emittable Config.haltByte := by decide
  exact List.forall_mem_append.mpr ⟨hbody, List.forall_mem_singleton.mpr hhalt⟩

/-- Settles O51: the byte at the line's index is the line's own, which is the branch to the label's index. -/
theorem assembledBranchReachesItsLabel : Obligations.AssembledBranchReachesItsLabel := by
  unfold Obligations.AssembledBranchReachesItsLabel
  intro src image c op line m name h hline htokens hop
  obtain ⟨labels, body, hlabels, rfl, hlength, hlines⟩ := assembleText_ok h
  obtain ⟨hc, -⟩ := List.getElem?_eq_some_iff.mp hline
  have hbyte : body[c]? = some body[c] := List.getElem?_eq_getElem (hlength ▸ hc)
  have hbranch : assembleBranch labels c op name = .ok body[c] := by
    rw [← assembleLine_of_branchOp htokens hop]
    exact hlines c line _ hline hbyte
  obtain ⟨target, htarget, hd, hb⟩ := assembleBranch_ok hbranch
  obtain ⟨-, hlt⟩ := branchOp_bounds hop
  refine ⟨body[c], labels, target, ?_, hlabels, htarget, ?_, ?_⟩
  · rw [List.getElem?_append_left (hlength ▸ hc), hbyte]
  · rw [hb, dispField_encB (by omega) hd]
    omega
  · rw [hb, opField_encB op _ (by omega) hd]

/-- Settles O52: the label's line enters its name with the count, and no later line enters the name again. -/
theorem labelsNameTheNextInstruction : Obligations.LabelsNameTheNextInstruction := by
  unfold Obligations.LabelsNameTheNextInstruction
  refine ⟨fun before after line table hl h => find_labelName hl h, fun a b c l1 l2 table hl1 hl2 hname h => ?_⟩
  obtain ⟨mid, hmid, h⟩ := collectLabels_append h
  obtain ⟨hnone, -⟩ := collectLabels_of_label hl2 h
  rw [← hname, find_labelName hl1 hmid] at hnone
  cases hnone

/-- Settles O4: by opcode and, for a branch, by sign bit; the thirteen calls evaluate. -/
theorem listingHasItsCanonicalForm : Obligations.ListingHasItsCanonicalForm := by
  unfold Obligations.ListingHasItsCanonicalForm
  refine ⟨fun s n => ?manipulation, fun k => ?branch, ?calls⟩
  case manipulation =>
    have hop (op : Nat) (ho : op < 8) : (opField (encM op s.val n.val)).toNat = op :=
      opField_encM op _ _ ho s.isLt n.isLt
    exact ⟨(disassemble_set (hop 0 (by decide))).trans (listManipulation_encM (by decide) "set" "" s n),
      (disassemble_mov (hop 1 (by decide))).trans (listManipulation_encM (by decide) "mov" "$" s n),
      (disassemble_get (hop 2 (by decide))).trans (listManipulation_encM (by decide) "get" "$" s n),
      (disassemble_cmp (hop 3 (by decide))).trans (listManipulation_encM (by decide) "cmp" "$" s n)⟩
  case branch =>
    exact ⟨(disassemble_jmp ((opField_ofNat _).trans (by omega))).trans (listBranch_forward "jmp" rfl k),
      (disassemble_jmp ((opField_ofNat _).trans (by omega))).trans (listBranch_backward "jmp" rfl k),
      (disassemble_jie ((opField_ofNat _).trans (by omega))).trans (listBranch_forward "jie" rfl k),
      (disassemble_jie ((opField_ofNat _).trans (by omega))).trans (listBranch_backward "jie" rfl k),
      (disassemble_jig ((opField_ofNat _).trans (by omega))).trans (listBranch_forward "jig" rfl k),
      (disassemble_jig ((opField_ofNat _).trans (by omega))).trans (listBranch_backward "jig" rfl k)⟩
  case calls => decide

/-- Settles O1: thirteen fixed bytes, each evaluated. -/
theorem writtenWordsDecode : Obligations.WrittenWordsDecode := by
  unfold Obligations.WrittenWordsDecode
  decide

/-- Settles O5: the fetched byte's step is exec of what it decodes to, and every byte decodes well formed. -/
theorem stepRunsTheDecodedInstruction : Obligations.StepRunsTheDecodedInstruction := by
  unfold Obligations.StepRunsTheDecodedInstruction
  rintro s b _ hreset hrunning hfetch rfl
  exact ⟨decodeByteWith_wf _ b, step_of_fetch_some s b hreset hrunning hfetch⟩

end

/-! PROOFS: the manipulation instructions' statements (40_manipulation.md). The four meanings as equations, the flags
as comparisons, and what the assembler makes of a text of one line, for every mnemonic of R89 at once. -/

namespace Sys2Proof

/-! ### Bytes of formats M and B under every map (30_encoding.md R71, R82) -/

theorem encM_eq_ofNat {k op s n : Nat} (h : k = op * 32 + s * 16 + n) : encM op s n = BitVec.ofNat 8 k := h ▸ rfl

theorem decodeByteWith_eq_decodeByte {m : SyscallMap} {b : Byte} (h : (opField b).toNat ≠ 7) :
    decodeByteWith m b = decodeByte b := by
  unfold decodeByte decodeByteWith
  split
  · rfl
  · split
    case h_8 =>
      have hlt := (opField b).isLt
      simp only [imp_false] at *
      omega
    all_goals rfl

/-- The bytes of formats M and B come back under every map, for only format C looks at it (30_encoding.md R75). -/
theorem decodeByteWith_encodeByteWith_of_opcode_lt (m : SyscallMap) {i : Instr} (hw : i.wf = true)
    (hi : i.opcode < 7) : decodeByteWith m (encodeByteWith m i) = i := by
  have hback : decodeByte (encodeByte i) = i := decodeByteWith_encodeByteWith (by decide) i hw
  have hop : (opField (encodeByte i)).toNat = i.opcode := by
    rw [← opcode_decodeByteWith SyscallMap.default]
    exact congrArg Instr.opcode hback
  have hbyte : encodeByteWith m i = encodeByte i := by
    cases i
    case set | mov | get | cmp | jmp | jie | jig => rfl
    all_goals exact absurd hi (Nat.lt_irrefl 7)
  rw [hbyte, decodeByteWith_eq_decodeByte (by omega), hback]

theorem encode_and_decode_of_byte {m : SyscallMap} {i : Instr} {b : Byte} (hb : encodeByteWith m i = b)
    (hw : i.wf = true) (hi : i.opcode < 7) : encodeByteWith m i = b ∧ decodeByteWith m b = i :=
  ⟨hb, hb ▸ decodeByteWith_encodeByteWith_of_opcode_lt m hw hi⟩

end Sys2Proof

namespace Sys2Proof.Machine

/-! ### The four instructions by the state's operations (R100 to R103) -/

section Meaning
variable (sel : Dmr) (n : Reg) (imm : BitVec 4) (s : State)

theorem exec_set : exec (.set sel imm) s = .next (advance (writeD s sel imm.toNat)) := rfl

theorem exec_mov : exec (.mov sel n) s = .next (advance (writeX s n (readD s sel))) := rfl

theorem exec_get : exec (.get sel n) s = .next (advance (writeD s sel (readX s n))) := rfl

theorem exec_cmp : exec (.cmp sel n) s = .next (advance (writeFlags s (readD s sel) (readX s n))) := rfl

variable {n}

theorem writeX_of_ne_zero (h : n ≠ 0) (v : Nat) : writeX s n v = { s with x := s.x.set n v } := if_neg h

/-- Neither flag register is R0, so both writes take effect. -/
theorem writeFlags_eq (a r : Nat) :
    writeFlags s a r = { s with x := (s.x.set 14 (greaterFlag a r)).set 15 (lessFlag a r) } := rfl

end Meaning

/-! ### The flags as comparisons (R103) -/

section Flags
variable {a r : Nat}

@[simp] theorem greaterFlag_eq_one_iff : greaterFlag a r = 1 ↔ r < a := by simp [greaterFlag]

@[simp] theorem greaterFlag_eq_zero_iff : greaterFlag a r = 0 ↔ a ≤ r := by simp [greaterFlag]

@[simp] theorem lessFlag_eq_one_iff : lessFlag a r = 1 ↔ a < r := by simp [lessFlag]

@[simp] theorem lessFlag_eq_zero_iff : lessFlag a r = 0 ↔ r ≤ a := by simp [lessFlag]

end Flags

/-- R14 and R15 after CMP. -/
theorem readX_flags_of_exec_cmp {sel : Dmr} {n : Reg} {s t : State} (h : exec (.cmp sel n) s = .next t) :
    readX t 14 = greaterFlag (readD s sel) (readX s n) ∧ readX t 15 = lessFlag (readD s sel) (readX s n) := by
  rw [exec_cmp] at h
  cases h
  simp [readX_writeFlags]

/-! ### Lines and tokens of a text (30_encoding.md R85, R88) -/

/-- A token: characters, none of them whitespace. -/
def IsToken (w : Text) : Prop := w ≠ [] ∧ ∀ c ∈ w, isSpace c = false

theorem splitLines_of_not_mem {l : Text} (h : '\n' ∉ l) : splitLines l = [l] := by
  induction l with
  | nil => rfl
  | cons c cs ih =>
    rw [List.mem_cons, not_or] at h
    obtain ⟨hc, hcs⟩ := h
    rw [splitLines, if_neg (Ne.symm hc), ih hcs]

theorem dropWhile_isSpace_append {w : Text} (hw : IsToken w) (rest : Text) :
    (w ++ rest).dropWhile isSpace = w ++ rest := by
  obtain ⟨hne, hw⟩ := hw
  cases w with
  | nil => exact absurd rfl hne
  | cons c cs => exact List.dropWhile_cons_of_neg (by simp [hw c])

/-- A text that begins and ends with a token has nothing to trim. -/
theorem trimText_of_isToken {first mid last : Text} (hf : IsToken first) (hl : IsToken last) :
    trimText (first ++ (mid ++ last)) = first ++ (mid ++ last) := by
  have hr : IsToken last.reverse := by simpa [IsToken] using hl
  have hback := dropWhile_isSpace_append hr (first ++ mid).reverse
  rw [← List.reverse_append, List.append_assoc] at hback
  rw [trimText, dropWhile_isSpace_append hf, hback, List.reverse_reverse]

/-- The characters of a token join the run read so far. -/
theorem tokensFrom_append {w : Text} (hw : ∀ c ∈ w, isSpace c = false) (cur rest : Text) :
    tokensFrom cur (w ++ rest) = tokensFrom (w.reverse ++ cur) rest := by
  induction w generalizing cur with
  | nil => rfl
  | cons c cs ih =>
    rw [List.forall_mem_cons] at hw
    obtain ⟨hc, hcs⟩ := hw
    rw [List.cons_append, tokensFrom, hc, if_neg Bool.false_ne_true, ih hcs]
    simp

theorem tokensFrom_token {w : Text} (hw : IsToken w) : tokensFrom [] w = [w] := by
  obtain ⟨hne, hw⟩ := hw
  have h := tokensFrom_append hw [] []
  rw [List.append_nil] at h
  simp [h, tokensFrom, hne]

theorem tokensFrom_token_space {w : Text} (hw : IsToken w) (rest : Text) :
    tokensFrom [] (w ++ ' ' :: rest) = w :: tokensFrom [] rest := by
  obtain ⟨hne, hw⟩ := hw
  have hspace : isSpace ' ' = true := rfl
  simp [tokensFrom_append hw, tokensFrom, hspace, hne]

/-! ### A text of one instruction line (30_encoding.md R85 to R88, R92) -/

theorem newline_not_mem_of_isToken {w : Text} (hw : IsToken w) : '\n' ∉ w := by
  obtain ⟨-, hw⟩ := hw
  intro h
  cases hw _ h

theorem sourceLines_of_isToken {first mid last : Text} (hf : IsToken first) (hl : IsToken last) (hmid : '\n' ∉ mid) :
    sourceLines (first ++ (mid ++ last)) = [first ++ (mid ++ last)] := by
  have hnewline : '\n' ∉ first ++ (mid ++ last) := by
    simp [newline_not_mem_of_isToken hf, newline_not_mem_of_isToken hl, hmid]
  rw [sourceLines, splitLines_of_not_mem hnewline, List.map_singleton, trimText_of_isToken hf hl]
  simp [hf.1]

/-- A line that ends in a token without a colon declares no label. -/
theorem isLabelLine_append {last : Text} (hne : last ≠ []) (hcolon : ':' ∉ last) (init : Text) :
    isLabelLine (init ++ last) = false := by
  have hlast : last.getLast hne ≠ ':' := fun h => hcolon (h ▸ List.getLast_mem hne)
  simp [isLabelLine, List.getLast?_append, List.getLast?_eq_some_getLast hne, hlast]

section OneLine
variable {src l : Text} (hlines : sourceLines src = [l]) (hlabel : isLabelLine l = false)
include hlines hlabel

theorem assembleText_of_line_ok {b : Byte} (h : assembleLine [] 0 l = .ok b) :
    assembleText src = .ok [b, Config.haltByte] := by
  simp [assembleText, hlines, collectLabels, emitFrom, hlabel, h]

theorem assembleText_of_line_error {k : AsmErrorKind} (h : assembleLine [] 0 l = .error k) :
    assembleText src = .error { kind := k, index := 1 } := by
  simp [assembleText, hlines, collectLabels, emitFrom, hlabel, h]

end OneLine

/-! ### Decimal digits read back (30_encoding.md R89) -/

theorem isDigit_of_mem_renderDecimal {n : Nat} {c : Char} (h : c ∈ renderDecimal n) : isDigit c = true := by
  have hc : c.isDigit = true := Nat.isDigit_of_mem_toDigits (by decide) (by decide) h
  simpa [isDigit, Char.isDigit, UInt32.le_iff_toNat_le] using hc

theorem isSpace_of_isDigit {c : Char} (h : isDigit c = true) : isSpace c = false := by
  rw [Bool.eq_false_iff]
  simp only [isDigit, isSpace, ne_eq, Bool.or_eq_true, Bool.and_eq_true, decide_eq_true_eq, beq_iff_eq] at h ⊢
  omega

theorem isToken_renderDecimal (n : Nat) : IsToken (renderDecimal n) :=
  ⟨Nat.toDigits_ne_nil, fun _ h => isSpace_of_isDigit (isDigit_of_mem_renderDecimal h)⟩

theorem parseDecimal_renderDecimal (n : Nat) : parseDecimal (renderDecimal n) = some n := by
  have hdigits : (renderDecimal n).all isDigit = true :=
    List.all_eq_true.mpr fun _ => isDigit_of_mem_renderDecimal
  have hvalue : (renderDecimal n).foldl (fun n c => n * 10 + (c.toNat - 48)) 0 = n := by
    simpa [Nat.ofDigitChars_eq_foldl, Nat.mul_comm, renderDecimal] using
      Nat.ofDigitChars_toDigits (b := 10) (n := n) (by decide) (by decide)
  rw [parseDecimal, if_pos ⟨Nat.toDigits_ne_nil, hdigits⟩, hvalue]

/-! ### The tokens of a manipulation line (30_encoding.md R89) -/

theorem isToken_of_manipulationOp {m : Text} {op : Nat} (h : manipulationOp m = some op) : IsToken m := by
  unfold manipulationOp at h
  split_ifs at h with hset hmov hget hcmp
  · simp [hset, IsToken, isSpace]
  · simp [hmov, IsToken, isSpace]
  · simp [hget, IsToken, isSpace]
  · simp [hcmp, IsToken, isSpace]

theorem isToken_cons {c : Char} {w : Text} (hc : isSpace c = false) (hw : IsToken w) : IsToken (c :: w) := by
  obtain ⟨-, hw⟩ := hw
  exact ⟨List.cons_ne_nil c w, List.forall_mem_cons.mpr ⟨hc, hw⟩⟩

theorem isToken_dmr (sel : Dmr) : IsToken ('#' :: renderDecimal sel.val) :=
  isToken_cons rfl (isToken_renderDecimal sel.val)

theorem dmrToken_renderDecimal (sel : Dmr) : dmrToken ('#' :: renderDecimal sel.val) = some sel.val := by
  revert sel
  decide

/-- The third token for the value `n`: SET's literal as it stands, a register index after a sigil. -/
def operandToken (op n : Nat) : Text := if op = 0 then renderDecimal n else '$' :: renderDecimal n

theorem isToken_operandToken (op n : Nat) : IsToken (operandToken op n) := by
  unfold operandToken
  split
  · exact isToken_renderDecimal n
  · exact isToken_cons rfl (isToken_renderDecimal n)

theorem colon_not_mem_operandToken (op n : Nat) : ':' ∉ operandToken op n := by
  have hdigits : ':' ∉ renderDecimal n := fun h => absurd (isDigit_of_mem_renderDecimal h) (by decide)
  unfold operandToken
  split <;> simp [hdigits]

theorem thirdOperand_operandToken (op : Nat) {n : Nat} (hn : n < 16) :
    thirdOperand op (operandToken op n) = some n := by
  have hliteral : nibbleLiteral (renderDecimal n) = some n := by
    simp [nibbleLiteral, parseDecimal_renderDecimal, hn]
  by_cases h : op = 0 <;> simp [thirdOperand, operandToken, h, hliteral]

theorem assembleManipulation_of_tokens {m r t : Text} {op sel n : Nat} (hm : manipulationOp m = some op)
    (hr : dmrToken r = some sel) (ht : thirdOperand op t = some n) :
    assembleManipulation m r t = if op = 1 ∧ n = 0 then .error .protectedRegisterError else .ok (encM op sel n) := by
  simp [assembleManipulation, hm, hr, ht]

/-- A manipulation line with the mnemonic `m` of opcode `op`. -/
def manipulationLine (m : Text) (op sel n : Nat) : Text :=
  m ++ ' ' :: ('#' :: renderDecimal sel ++ ' ' :: operandToken op n)

theorem isLabelLine_manipulationLine (m : Text) (op sel n : Nat) :
    isLabelLine (manipulationLine m op sel n) = false := by
  obtain ⟨hne, -⟩ := isToken_operandToken op n
  simpa [manipulationLine] using
    isLabelLine_append hne (colon_not_mem_operandToken op n) (m ++ ' ' :: ('#' :: renderDecimal sel ++ [' ']))

section ManipulationLine
variable {m : Text} {op : Nat} (hm : manipulationOp m = some op) (sel : Dmr) (n : Reg)
include hm

theorem tokens_manipulationLine :
    tokens (manipulationLine m op sel.val n.val) = [m, '#' :: renderDecimal sel.val, operandToken op n.val] := by
  rw [tokens, manipulationLine, tokensFrom_token_space (isToken_of_manipulationOp hm),
    tokensFrom_token_space (isToken_dmr sel), tokensFrom_token (isToken_operandToken op n)]

theorem assembleLine_manipulationLine (labels : LabelTable) (c : Nat) :
    assembleLine labels c (manipulationLine m op sel.val n.val) =
      if op = 1 ∧ n.val = 0 then .error .protectedRegisterError else .ok (encM op sel.val n.val) := by
  rw [← assembleManipulation_of_tokens hm (dmrToken_renderDecimal sel) (thirdOperand_operandToken op n.isLt)]
  simp [assembleLine, tokens_manipulationLine hm]

theorem sourceLines_manipulationLine :
    sourceLines (manipulationLine m op sel.val n.val) = [manipulationLine m op sel.val n.val] := by
  have hmid : '\n' ∉ ' ' :: ('#' :: renderDecimal sel.val ++ [' ']) := by
    simpa using newline_not_mem_of_isToken (isToken_dmr sel)
  simpa [manipulationLine] using
    sourceLines_of_isToken (isToken_of_manipulationOp hm) (isToken_operandToken op n) hmid

/-- The image of a text of one manipulation line. -/
theorem assemble_manipulationLine {src : String} (hsrc : src.toList = manipulationLine m op sel.val n.val)
    (hprot : ¬(op = 1 ∧ n.val = 0)) {b : Byte} (hb : encM op sel.val n.val = b) :
    assemble src = .ok [b, Config.haltByte] := by
  rw [assemble, hsrc]
  refine assembleText_of_line_ok (sourceLines_manipulationLine hm sel n) (isLabelLine_manipulationLine m op sel n) ?_
  rw [assembleLine_manipulationLine hm, if_neg hprot, hb]

/-- MOV to R0 is refused (R89, R93). -/
theorem assemble_manipulationLine_protected {src : String}
    (hsrc : src.toList = manipulationLine m op sel.val n.val) (hprot : op = 1 ∧ n.val = 0) :
    assemble src = .error { kind := .protectedRegisterError, index := 1 } := by
  rw [assemble, hsrc]
  refine assembleText_of_line_error (sourceLines_manipulationLine hm sel n) (isLabelLine_manipulationLine m op sel n) ?_
  rw [assembleLine_manipulationLine hm, if_pos hprot]

end ManipulationLine

end Sys2Proof.Machine

section
open Sys2Proof Sys2Proof.Machine

/-- Settles O9: the meaning's equation; the byte is of format M with opcode 0; the line assembles to it. -/
theorem setLoadsTheImmediate : Obligations.SetLoadsTheImmediate := by
  unfold Obligations.SetLoadsTheImmediate
  refine ⟨exec_set, fun m sel imm => ?encoding, fun sel n => ?line⟩
  case encoding => exact encode_and_decode_of_byte (encM_eq_ofNat (by omega)) rfl (by decide : 0 < 7)
  case line =>
    exact assemble_manipulationLine (m := "set".toList) (op := 0) rfl sel n
      (by simp [manipulationLine, operandToken, listNumber]) (by omega) (encM_eq_ofNat (by omega))

/-- Settles O10: the guarded write with `n` other than 0 and with R0; the line is refused where `n = 0`. -/
theorem movCopiesTheDmr : Obligations.MovCopiesTheDmr := by
  unfold Obligations.MovCopiesTheDmr
  refine ⟨fun sel n s hn => ?write, fun sel s => ?discarded, fun m sel n => ?encoding, fun sel n => ?line⟩
  case write =>
    rw [exec_mov, writeX_of_ne_zero s hn]
    rfl
  case discarded =>
    rw [exec_mov, writeX_zero]
    rfl
  case encoding => exact encode_and_decode_of_byte (encM_eq_ofNat (by omega)) rfl (by decide : 1 < 7)
  case line =>
    have hsrc : ("mov #" ++ listNumber sel.val ++ " $" ++ listNumber n.val).toList =
        manipulationLine "mov".toList 1 sel.val n.val := by
      simp [manipulationLine, operandToken, listNumber]
    by_cases hn : n = 0
    · subst hn
      exact assemble_manipulationLine_protected rfl sel 0 hsrc ⟨rfl, rfl⟩
    · rw [if_neg hn]
      exact assemble_manipulationLine rfl sel n hsrc (fun h => hn (Fin.ext h.2)) (encM_eq_ofNat (by omega))

/-- Settles O11: the meaning's equation, at R0 with the value it holds; encoding and line as for every format M row. -/
theorem getCopiesTheRegister : Obligations.GetCopiesTheRegister := by
  unfold Obligations.GetCopiesTheRegister
  refine ⟨exec_get, fun sel s hzero => ?fromRZero, fun m sel n => ?encoding, fun sel n => ?line⟩
  case fromRZero =>
    rw [exec_get, hzero]
    rfl
  case encoding => exact encode_and_decode_of_byte (encM_eq_ofNat (by omega)) rfl (by decide : 2 < 7)
  case line =>
    exact assemble_manipulationLine (m := "get".toList) (op := 2) rfl sel n
      (by simp [manipulationLine, operandToken, listNumber]) (by omega) (encM_eq_ofNat (by omega))

/-- Settles O12: both flags are read off the two comparisons of the values before the step. -/
theorem cmpSetsBothFlags : Obligations.CmpSetsBothFlags := by
  unfold Obligations.CmpSetsBothFlags
  refine ⟨fun sel n s => ?state, fun sel n s => ?outcomes, fun sel s t hzero h => ?againstRZero,
    fun m sel n => ?encoding, fun sel n => ?line⟩
  case state =>
    rw [exec_cmp, writeFlags_eq]
    rfl
  case outcomes =>
    obtain ⟨hgreater, hless⟩ := readX_flags_of_exec_cmp (exec_cmp sel n s)
    refine ⟨_, exec_cmp sel n s, ?_⟩
    rw [hgreater, hless]
    simp only [greaterFlag_eq_one_iff, greaterFlag_eq_zero_iff, lessFlag_eq_one_iff, lessFlag_eq_zero_iff]
    exact ⟨fun h => ⟨h, h.le⟩, fun h => ⟨h.le, h⟩, fun h => ⟨h.le, h.ge⟩⟩
  case againstRZero =>
    obtain ⟨hgreater, -⟩ := readX_flags_of_exec_cmp h
    rw [hgreater, hzero, greaterFlag_eq_one_iff]
    exact Nat.pos_iff_ne_zero
  case encoding => exact encode_and_decode_of_byte (encM_eq_ofNat (by omega)) rfl (by decide : 3 < 7)
  case line =>
    exact assemble_manipulationLine (m := "cmp".toList) (op := 3) rfl sel n
      (by simp [manipulationLine, operandToken, listNumber]) (by omega) (encM_eq_ofNat (by omega))

end

/-! PROOFS: the branch instructions' statements (41_branch.md). The three meanings and the two calls on R13 as
equations, and the displacement of a byte written as its row's base plus a magnitude. -/

namespace Sys2Proof

/-! ### The displacement of a row's byte (30_encoding.md R74) -/

section BranchByte
variable {base : Nat} (k : Fin 16)

theorem dispField_base_add_forward (hbase : base % 32 = 0) : dispField (BitVec.ofNat 8 (base + k.val)) = k.val := by
  rw [dispField_eq, BitVec.toNat_ofNat, if_neg (by omega)]
  omega

/-- With the sign bit in the base, minus zero included (30_encoding.md R82). -/
theorem dispField_base_add_backward (hbase : base % 32 = 16) :
    dispField (BitVec.ofNat 8 (base + k.val)) = -(k.val : Int) := by
  rw [dispField_eq, BitVec.toNat_ofNat, if_pos (by omega)]
  omega

end BranchByte

end Sys2Proof

namespace Sys2Proof.Machine

/-! ### A taken branch by its target (R130) -/

section Target
variable {s w : State} {target : Int}

theorem takeBranch_of_nonneg (h : 0 ≤ target) : takeBranch s w target = setPc w target.toNat := if_neg (not_lt.mpr h)

theorem takeBranch_of_neg (h : target < 0) : takeBranch s w target = raiseFault .branchTargetNegative s := if_pos h

end Target

/-! ### The three branches by the state's operations (R131 to R133) -/

section Meaning
variable (disp : Int) {s : State}

theorem exec_jmp (s : State) :
    exec (.jmp disp) s = .next (takeBranch s (writeX s 13 (pcWord s)) ((s.pc : Int) + disp)) := rfl

/-- A jump whose address fits R13 and whose target does not fault. -/
theorem exec_jmp_of_nonneg (hpc : s.pc < 2 ^ s.params.regBits) (htarget : 0 ≤ (s.pc : Int) + disp) :
    exec (.jmp disp) s = .next (setPc (writeX s 13 s.pc) ((s.pc : Int) + disp).toNat) := by
  rw [exec_jmp, takeBranch_of_nonneg htarget, pcWord_of_lt s hpc]

theorem exec_jie_of_equal (h14 : readX s 14 = 0) (h15 : readX s 15 = 0) :
    exec (.jie disp) s = .next (takeBranch s s ((s.pc : Int) + disp)) :=
  congrArg _ (if_pos ((flagsEqual_iff s).mpr ⟨h14, h15⟩))

theorem exec_jie_of_not_equal (h : readX s 14 ≠ 0 ∨ readX s 15 ≠ 0) : exec (.jie disp) s = .next (advance s) := by
  have hflags : ¬ flagsEqual s = true := fun hf => not_and_or.mpr h ((flagsEqual_iff s).mp hf)
  exact congrArg _ (if_neg hflags)

theorem exec_jig_of_greater (h14 : readX s 14 = 1) (h15 : readX s 15 = 0) :
    exec (.jig disp) s = .next (takeBranch s s ((s.pc : Int) + disp)) :=
  congrArg _ (if_pos ((flagsGreater_iff s).mpr ⟨h14, h15⟩))

theorem exec_jig_of_not_greater (h : readX s 14 ≠ 1 ∨ readX s 15 ≠ 0) : exec (.jig disp) s = .next (advance s) := by
  have hflags : ¬ flagsGreater s = true := fun hf => not_and_or.mpr h ((flagsGreater_iff s).mp hf)
  exact congrArg _ (if_neg hflags)

end Meaning

/-! ### R13 as the return address (10_state.md R25, 42_syscalls.md R160, R161) -/

section ReturnAddress
variable {s t : State}

theorem readX_thirteen_of_exec_jmp {disp : Int} (hpc : s.pc < 2 ^ s.params.regBits)
    (htarget : 0 ≤ (s.pc : Int) + disp) (h : exec (.jmp disp) s = .next t) : readX t 13 = s.pc := by
  rw [exec_jmp_of_nonneg disp hpc htarget] at h
  cases h
  exact readX_writeX_same s 13 s.pc (by decide)

theorem readX_thirteen_of_exec_calPc (hpc : s.pc < 2 ^ s.params.regBits) (h : exec .calPc s = .next t) :
    readX t 13 = s.pc := by
  cases h
  exact (readX_writeX_same s 13 (pcWord s) (by decide)).trans (pcWord_of_lt s hpc)

theorem exec_calRet_of_retAdvance (h : s.params.retAdvance = true) :
    exec .calRet s = .next (advance (setPc s (readX s 13))) := congrArg _ (if_pos h)

end ReturnAddress

end Sys2Proof.Machine

section
open Sys2Proof Sys2Proof.Machine Sys2Proof.Laws.OpcodeBits

/-- Settles O13: the target's sign decides; a jump writes R13 and `pc`, and each half of the row fixes the sign bit. -/
theorem jmpSavesItsAddressAndJumps : Obligations.JmpSavesItsAddressAndJumps := by
  unfold Obligations.JmpSavesItsAddressAndJumps
  refine ⟨fun disp s hpc htarget => ?jump, fun disp s htarget => ?fault, fun disp s t hpc htarget h => ⟨?saved, ?target⟩,
    fun m k => ⟨?forward, ?backward⟩, fun labels c name => assembleTwo_of_branchOp rfl⟩
  case jump => exact exec_jmp_of_nonneg disp hpc htarget
  case fault =>
    rw [exec_jmp, takeBranch_of_neg htarget]
    rfl
  case saved => exact readX_thirteen_of_exec_jmp hpc htarget h
  case target =>
    rw [exec_jmp_of_nonneg disp hpc htarget] at h
    cases h
    exact Int.toNat_of_nonneg htarget
  case forward => rw [decodeByteWith_jmp ((opField_ofNat _).trans (by omega)), dispField_base_add_forward k rfl]
  case backward => rw [decodeByteWith_jmp ((opField_ofNat _).trans (by omega)), dispField_base_add_backward k rfl]

/-- Settles O14: with both flags 0 the target's sign decides; with any other flags `pc` advances. -/
theorem jieJumpsIfEqual : Obligations.JieJumpsIfEqual := by
  unfold Obligations.JieJumpsIfEqual
  refine ⟨fun disp s h14 h15 htarget => ?jump, fun disp s h14 h15 htarget => ?fault,
    fun disp s => exec_jie_of_not_equal disp, fun m k => ⟨?forward, ?backward⟩,
    fun labels c name => assembleTwo_of_branchOp rfl⟩
  case jump =>
    rw [exec_jie_of_equal disp h14 h15, takeBranch_of_nonneg htarget]
    rfl
  case fault =>
    rw [exec_jie_of_equal disp h14 h15, takeBranch_of_neg htarget]
    rfl
  case forward => rw [decodeByteWith_jie ((opField_ofNat _).trans (by omega)), dispField_base_add_forward k rfl]
  case backward => rw [decodeByteWith_jie ((opField_ofNat _).trans (by omega)), dispField_base_add_backward k rfl]

/-- Settles O15: with R14 = 1 and R15 = 0 the target's sign decides; with any other flags `pc` advances. -/
theorem jigJumpsIfGreater : Obligations.JigJumpsIfGreater := by
  unfold Obligations.JigJumpsIfGreater
  refine ⟨fun disp s h14 h15 htarget => ?jump, fun disp s h14 h15 htarget => ?fault,
    fun disp s => exec_jig_of_not_greater disp, fun m k => ⟨?forward, ?backward⟩,
    fun labels c name => assembleTwo_of_branchOp rfl⟩
  case jump =>
    rw [exec_jig_of_greater disp h14 h15, takeBranch_of_nonneg htarget]
    rfl
  case fault =>
    rw [exec_jig_of_greater disp h14 h15, takeBranch_of_neg htarget]
    rfl
  case forward => rw [decodeByteWith_jig ((opField_ofNat _).trans (by omega)), dispField_base_add_forward k rfl]
  case backward => rw [decodeByteWith_jig ((opField_ofNat _).trans (by omega)), dispField_base_add_backward k rfl]

/-- Settles O16: the JMP and the PC both leave their own address in R13, and RET advances from what R13 reads. -/
theorem returnResumesAfterTheCall : Obligations.ReturnResumesAfterTheCall := by
  unfold Obligations.ReturnResumesAfterTheCall
  intro s t u disp hpc htarget hcall hheld hadvance
  have hsaved : readX t 13 = s.pc := by
    obtain hjmp | hcalPc := hcall
    · exact readX_thirteen_of_exec_jmp hpc htarget hjmp
    · exact readX_thirteen_of_exec_calPc hpc hcalPc
  rw [exec_calRet_of_retAdvance hadvance, hheld, hsaved]
  rfl

end

/-! PROOFS: the system calls' statements (42_syscalls.md). The calls' meanings by the state's operations, a result in
R11 as the whole next state, what the assembler makes of a line `cal <code>`, and the host's lines of input. -/

namespace Sys2Proof

/-! ### The calls' bytes (30_encoding.md R75, R76) -/

/-- The bytes from 0xED on decode to a reserved row, under every map. -/
theorem isReserved_decodeByteWith_of_le {m : SyscallMap} {b : Byte} (h : 0xED ≤ b.toNat) :
    (decodeByteWith m b).isReserved = true := by
  have hne : b ≠ Config.haltByte := by
    rintro rfl
    exact absurd h (by decide)
  have hop : (opField b).toNat = 7 := by
    rw [opField_toNat]
    omega
  have hcode := toNat_of_opField hop
  rw [decodeByteWith_of_opField hne hop]
  exact isReserved_decodeCall_of_le m _ (by omega)

/-- A name's instruction and the byte of its code stand for each other. -/
theorem encode_and_decode_toInstr (n : Syscall) {b : Byte} (hb : encC (SyscallMap.default.codeOf n) = b) :
    encodeByte n.toInstr = b ∧ decodeByte b = n.toInstr :=
  ⟨(encodeByteWith_toInstr _ n).trans hb, hb ▸ decodeByteWith_codeOf (by decide) n⟩

end Sys2Proof

namespace Sys2Proof.Machine

/-! ### A result in R11 (10_state.md R23, R30) -/

section Result
variable (s : State)

theorem storeResult_eq (v : Nat) : storeResult s v = { s with x := s.x.set 11 v, pc := s.pc + 1 } := rfl

variable {s} {sum : Nat}

theorem storeSum_of_wrap_or_lt (h : s.params.addOverflow = .wrap ∨ sum < 2 ^ s.params.regBits) :
    storeSum s sum = storeResult s (sum % 2 ^ s.params.regBits) := by
  obtain ⟨hle, hfault, -⟩ | ⟨-, hstore⟩ := storeSum_cases s sum
  · obtain hwrap | hlt := h
    · cases hwrap.symm.trans hfault
    · omega
  · exact hstore

theorem storeSum_of_overflow (hfault : s.params.addOverflow = .fault) (hle : 2 ^ s.params.regBits ≤ sum) :
    storeSum s sum = raiseFault .arithOverflow s := by
  obtain ⟨-, -, hraise⟩ | ⟨hlt | hwrap, -⟩ := storeSum_cases s sum
  · exact hraise
  · omega
  · cases hfault.symm.trans hwrap

end Result

/-! ### Residues of differences (00_scope.md R6) -/

section Residue
variable {w : Nat}

theorem truncW_neg_one : truncW w (-1) = 2 ^ w - 1 := by
  have hpos := Nat.two_pow_pos w
  have hshift : (-1 : Int) % ((2 ^ w : Nat) : Int) = ((2 ^ w - 1 : Nat) : Int) % ((2 ^ w : Nat) : Int) := by
    rw [← Int.add_emod_right]
    congr 1
    omega
  rw [truncW, hshift, ← truncW, truncW_natCast]
  exact Nat.mod_eq_of_lt (by omega)

theorem truncW_sub_one {n : Nat} (hpos : 0 < n) (hlt : n < 2 ^ w) : truncW w ((n : Int) - 1) = n - 1 := by
  have hcast : (n : Int) - 1 = ((n - 1 : Nat) : Int) := by omega
  rw [hcast, truncW_natCast]
  exact Nat.mod_eq_of_lt (by omega)

end Residue

/-! ### The calls by the state's operations (R151 to R164) -/

section Meaning
variable (s : State)

theorem exec_calExit : exec .calExit s = .next (haltCore s) := rfl

theorem exec_calAdd : exec .calAdd s = .next (storeSum s (readD s 0 + readD s 1)) := rfl

theorem exec_calSub :
    exec .calSub s = .next (storeResult s (truncW s.params.regBits ((readD s 0 : Int) - (readD s 1 : Int)))) := rfl

theorem exec_calAnd : exec .calAnd s = .next (storeResult s (readD s 0 &&& readD s 1)) := rfl

theorem exec_calOr : exec .calOr s = .next (storeResult s (readD s 0 ||| readD s 1)) := rfl

theorem exec_calXor : exec .calXor s = .next (storeResult s (readD s 0 ^^^ readD s 1)) := rfl

theorem exec_calNot : exec .calNot s = .next (storeResult s (complementW s.params.regBits (readD s 0))) := rfl

theorem exec_calInc : exec .calInc s = .next (storeSum s (readD s 0 + 1)) := rfl

theorem exec_calDec :
    exec .calDec s = .next (storeResult s (truncW s.params.regBits ((readD s 0 : Int) - 1))) := rfl

theorem exec_calPc : exec .calPc s = .next (advance (writeX s 13 (pcWord s))) := rfl

theorem exec_calGeti : exec .calGeti s = .next (exchangeInput s) := rfl

theorem exec_calPuti : exec .calPuti s = .next (advance (outWrite s (readX s 12))) := rfl

theorem exec_of_isReserved : ∀ {i : Instr}, i.isReserved = true →
    exec i s = .next { s with status := .faulted .undefinedSyscall }
  | .calReserved13, _ => rfl
  | .calReserved14 _, _ => rfl
  | .calReserved16 _, _ => rfl

end Meaning

/-! ### GETI's exchange by the host's channel (R162) -/

section Exchange
variable {s : State}

theorem exchangeInput_of_nil (h : s.inbox = []) : exchangeInput s = setStatus s .awaitingInput := by
  simp [exchangeInput, h]

theorem exchangeInput_of_cons {a : Answer} {rest : List Answer} (h : s.inbox = a :: rest) :
    exchangeInput s = completeInput (takeAnswer s a rest) a := by
  simp [exchangeInput, h]

end Exchange

/-! ### A text of one call line (30_encoding.md R91) -/

/-- The line of the call with this code. -/
def callLine (code : Nat) : Text := "cal".toList ++ (' ' :: renderDecimal code)

theorem isToken_cal : IsToken "cal".toList := by simp [IsToken, isSpace]

theorem assembleTwo_cal (labels : LabelTable) (c : Nat) (t : Text) :
    assembleTwo labels c "cal".toList t = assembleCall t := rfl

section CallLine
variable {code : Nat}

theorem sourceLines_callLine : sourceLines (callLine code) = [callLine code] :=
  sourceLines_of_isToken (mid := [' ']) isToken_cal (isToken_renderDecimal code) (by decide)

theorem isLabelLine_callLine : isLabelLine (callLine code) = false := by
  obtain ⟨hne, -⟩ := isToken_renderDecimal code
  have hcolon : ':' ∉ renderDecimal code := fun h => absurd (isDigit_of_mem_renderDecimal h) (by decide)
  simpa [callLine] using isLabelLine_append hne hcolon ("cal".toList ++ [' '])

theorem tokens_callLine : tokens (callLine code) = ["cal".toList, renderDecimal code] := by
  rw [tokens, callLine, tokensFrom_token_space isToken_cal, tokensFrom_token (isToken_renderDecimal code)]

theorem assembleLine_callLine (hcode : code < 13) (labels : LabelTable) (c : Nat) :
    assembleLine labels c (callLine code) = .ok (encC code) := by
  have hcall : assembleCall (renderDecimal code) = .ok (encC code) := by
    simp [assembleCall, parseDecimal_renderDecimal, hcode]
  simp only [assembleLine, tokens_callLine, assembleTwo_cal, hcall]

/-- The image of a text of one call line. -/
theorem assemble_callLine {src : String} (hsrc : src.toList = callLine code) (hcode : code < 13) :
    assemble src = .ok [encC code, Config.haltByte] := by
  rw [assemble, hsrc]
  exact assembleText_of_line_ok sourceLines_callLine isLabelLine_callLine (assembleLine_callLine hcode [] 0)

end CallLine

/-- One row of the call table (30_encoding.md R75): the byte of a name's code is its encoding, decodes to it, and is
what the line with that code assembles to. -/
theorem encode_decode_assemble_call (n : Syscall) {src : String} {b : Byte}
    (hb : encC (SyscallMap.default.codeOf n) = b)
    (hsrc : src.toList = callLine (SyscallMap.default.codeOf n)) :
    encodeByte n.toInstr = b ∧ decodeByte b = n.toInstr ∧ assemble src = .ok [b, Config.haltByte] := by
  obtain ⟨hencode, hdecode⟩ := encode_and_decode_toInstr n hb
  exact ⟨hencode, hdecode, hb ▸ assemble_callLine hsrc (codeOf_lt_thirteen (by decide) n)⟩

/-! ### The host's lines of input (R162, D14) -/

/-- Whitespace around a token is stripped. -/
theorem trimText_of_spaces {before w after : Text} (hb : ∀ c ∈ before, isSpace c = true) (hw : IsToken w)
    (ha : ∀ c ∈ after, isSpace c = true) : trimText (before ++ (w ++ after)) = w := by
  have hr : IsToken w.reverse := by simpa [IsToken] using hw
  have hback := dropWhile_isSpace_append hr []
  rw [List.append_nil] at hback
  rw [trimText, List.dropWhile_append_of_pos hb, dropWhile_isSpace_append hw, List.reverse_append,
    List.dropWhile_append_of_pos (by simpa using ha), hback, List.reverse_reverse]

theorem parseDecimal_eq_none {l : Text} (h : l = [] ∨ ∃ c ∈ l, isDigit c = false) : parseDecimal l = none := by
  refine if_neg fun ⟨hne, hdigits⟩ => ?_
  obtain hnil | ⟨c, hc, hother⟩ := h
  · exact hne hnil
  · exact Bool.false_ne_true (hother.symm.trans (List.all_eq_true.mp hdigits c hc))

theorem parseDecimal_zero_cons {l : Text} (hne : l ≠ []) : parseDecimal ('0' :: l) = parseDecimal l := by
  have hzero : isDigit '0' = true := rfl
  simp [parseDecimal, hne, hzero]

section Line
variable {w : Nat} {line : Text}

theorem answerOfLine_of_parse_none (h : parseDecimal (trimText line) = none) :
    answerOfLine w (some line) = .error := by
  simp [answerOfLine, h]

theorem answerOfLine_of_parse_some {n : Nat} (h : parseDecimal (trimText line) = some n) :
    answerOfLine w (some line) = if n < 2 ^ w then .value n else .error := by
  simp [answerOfLine, h]

end Line

/-- A number with a leading zero and whitespace on both sides. -/
theorem parseDecimal_trimText_padded (v : Nat) :
    parseDecimal (trimText (' ' :: '0' :: renderDecimal v ++ ['\n'])) = some v := by
  have hw : IsToken ('0' :: renderDecimal v) := isToken_cons rfl (isToken_renderDecimal v)
  have htrim : trimText (' ' :: '0' :: renderDecimal v ++ ['\n']) = '0' :: renderDecimal v :=
    trimText_of_spaces (before := [' ']) (after := ['\n']) (by simp [isSpace]) hw (by simp [isSpace])
  rw [htrim, parseDecimal_zero_cons (isToken_renderDecimal v).1, parseDecimal_renderDecimal]

/-! ### The host's text of the output (R163, D15) -/

theorem renderOutput_singleton (v : Nat) : renderOutput [v] = renderDecimal v := List.flatMap_singleton ..

theorem renderOutput_append (vs ws : List Nat) : renderOutput (vs ++ ws) = renderOutput vs ++ renderOutput ws :=
  List.flatMap_append

theorem toList_toString (v : Nat) : (toString v).toList = renderDecimal v := String.toList_ofList

end Sys2Proof.Machine

section
open Sys2Proof Sys2Proof.Machine

/-- Settles O7: the halt byte's step is EXIT's meaning under every map, and a halted core has no step. -/
theorem exitHaltsInPlace : Obligations.ExitHaltsInPlace := by
  unfold Obligations.ExitHaltsInPlace
  refine ⟨fun s hreset hrunning hfetch => ?step, exec_calExit, fun s t hreset hhalted => ?stopped,
    encode_decode_assemble_call .exit (by decide) (by decide)⟩
  case step => exact (step_of_fetch_some s _ hreset hrunning hfetch).trans (exec_calExit s)
  case stopped =>
    rw [step_of_halted s hreset hhalted]
    exact nofun

/-- Settles O17: the sum is stored, or its overflow faults. -/
theorem addStoresTheSum : Obligations.AddStoresTheSum := by
  unfold Obligations.AddStoresTheSum
  refine ⟨fun s hfits => ?stored, fun s hfault hle => ?fault,
    encode_decode_assemble_call .add (by decide) (by decide)⟩
  case stored => rw [exec_calAdd, storeSum_of_wrap_or_lt hfits, storeResult_eq]
  case fault =>
    rw [exec_calAdd, storeSum_of_overflow hfault hle]
    rfl

/-- Settles O18: `trunc_W` of the integer difference is its residue. -/
theorem subStoresTheDifference : Obligations.SubStoresTheDifference := by
  unfold Obligations.SubStoresTheDifference
  exact ⟨fun s => ⟨_, truncW_cast _ _, exec_calSub s⟩,
    encode_decode_assemble_call .sub (by decide) (by decide)⟩

/-- Settles O19: the three results bit by bit. -/
theorem bitwiseCallsActOnEachBit : Obligations.BitwiseCallsActOnEachBit := by
  unfold Obligations.BitwiseCallsActOnEachBit
  obtain ⟨handEncode, handDecode, handLine⟩ :=
    encode_decode_assemble_call .and (src := "cal 3") (b := 0xE3#8) (by decide) (by decide)
  obtain ⟨horEncode, horDecode, horLine⟩ :=
    encode_decode_assemble_call .or (src := "cal 4") (b := 0xE4#8) (by decide) (by decide)
  exact ⟨fun s => ⟨_, Nat.testBit_and _ _, exec_calAnd s⟩, fun s => ⟨_, Nat.testBit_or _ _, exec_calOr s⟩,
    fun s => ⟨_, Nat.testBit_xor _ _, exec_calXor s⟩, handEncode, handDecode, handLine,
    horEncode, horDecode, horLine, encode_decode_assemble_call .xor (by decide) (by decide)⟩

/-- Settles O20: the complement as a number and, of a register value, bit by bit. -/
theorem notStoresTheComplement : Obligations.NotStoresTheComplement := by
  unfold Obligations.NotStoresTheComplement
  exact ⟨fun s => ⟨_, rfl, fun hword k => testBit_complementW _ k _ hword, exec_calNot s⟩,
    encode_decode_assemble_call .not (by decide) (by decide)⟩

/-- Settles O21: the successor is stored, or its overflow faults, as for ADD. -/
theorem incStoresTheSuccessor : Obligations.IncStoresTheSuccessor := by
  unfold Obligations.IncStoresTheSuccessor
  refine ⟨fun s hfits => ?stored, fun s hfault hle => ?fault,
    encode_decode_assemble_call .inc (by decide) (by decide)⟩
  case stored => rw [exec_calInc, storeSum_of_wrap_or_lt hfits, storeResult_eq]
  case fault =>
    rw [exec_calInc, storeSum_of_overflow hfault hle]
    rfl

/-- Settles O22: the residue of `d[0] - 1`, which is that of `-1` for 0 and the predecessor itself otherwise. -/
theorem decStoresThePredecessor : Obligations.DecStoresThePredecessor := by
  unfold Obligations.DecStoresThePredecessor
  refine ⟨fun s => ⟨_, truncW_cast _ _, fun hzero => ?ofZero, truncW_sub_one, exec_calDec s⟩,
    encode_decode_assemble_call .dec (by decide) (by decide)⟩
  rw [hzero]
  exact truncW_neg_one

/-- Settles O23: the saved word is the address itself where it fits. -/
theorem pcSavesItsOwnAddress : Obligations.PcSavesItsOwnAddress := by
  unfold Obligations.PcSavesItsOwnAddress
  refine ⟨fun s hpc => ?saved, fun s t => readX_thirteen_of_exec_calPc,
    encode_decode_assemble_call .pc (by decide) (by decide)⟩
  rw [exec_calPc, pcWord_of_lt s hpc]
  rfl

/-- Settles O24: RET with the advance. -/
theorem retContinuesAfterRThirteen : Obligations.RetContinuesAfterRThirteen := by
  unfold Obligations.RetContinuesAfterRThirteen
  exact ⟨fun s => exec_calRet_of_retAdvance, encode_decode_assemble_call .ret (by decide) (by decide)⟩

/-- Settles O26: the exchange by the channel's first answer, in GETI and in a wait alike; the lines by what their
stripped text parses to. -/
theorem getiTakesTheHostsAnswer : Obligations.GetiTakesTheHostsAnswer := by
  unfold Obligations.GetiTakesTheHostsAnswer
  obtain ⟨hencode, hdecode, hline⟩ :=
    encode_decode_assemble_call .geti (src := "cal 11") (b := 0xEB#8) (by decide) (by decide)
  refine ⟨fun s v rest hin => ?value, fun s rest hin => ?error, fun s hin => ?wait, fun s => step_of_waiting s,
    fun s hreset hwaiting hin => ?waitAgain, hencode, hdecode, hline, fun w => rfl, fun w line hother => ?refused,
    fun w v hv => ?padded, fun w line n => answerOfLine_of_parse_some⟩
  case value =>
    rw [exec_calGeti, exchangeInput_of_cons hin]
    exact ⟨_, rfl, rfl, rfl, rfl, rfl, rfl⟩
  case error =>
    rw [exec_calGeti, exchangeInput_of_cons hin]
    exact ⟨_, rfl, rfl, rfl, rfl, rfl, rfl⟩
  case wait =>
    rw [exec_calGeti, exchangeInput_of_nil hin]
    rfl
  case waitAgain =>
    rw [step_of_waiting s hreset hwaiting, exchangeInput_of_nil hin, ← hwaiting]
    rfl
  case refused => exact answerOfLine_of_parse_none (parseDecimal_eq_none hother)
  case padded => rw [answerOfLine_of_parse_some (parseDecimal_trimText_padded v), if_pos hv]

/-- Settles O28: PUTI's equation; the text of a value is its decimal digits and texts run together. -/
theorem putiAppendsRTwelve : Obligations.PutiAppendsRTwelve := by
  unfold Obligations.PutiAppendsRTwelve
  exact ⟨exec_calPuti, by decide, by decide, fun v => (renderOutput_singleton v).trans (toList_toString v).symm,
    renderOutput_append, encode_decode_assemble_call .puti (by decide) (by decide)⟩

/-- Settles O29: such a byte decodes to a reserved row, and each of the three rows faults. -/
theorem reservedCodesFault : Obligations.ReservedCodesFault := by
  unfold Obligations.ReservedCodesFault
  refine ⟨fun s b hreset hrunning hfetch hle => ?step, fun s => exec_of_isReserved s rfl,
    fun c s => exec_of_isReserved s rfl, fun c s => exec_of_isReserved s rfl⟩
  rw [step_of_fetch_some s b hreset hrunning hfetch]
  exact exec_of_isReserved s (isReserved_decodeByteWith_of_le hle)

end

/-! PROOFS: the exceptions' statements (60_exceptions.md). A fault of an instruction and its cause determine each other
(section 1), what the faulting step leaves unchanged, and the launch as one equation (section 3). -/

namespace Sys2Proof.Machine

/-! ### A fault and its cause (R200, R201) -/

section FaultOfInstruction
variable {s t : State} {i : Instr} {r : FaultReason}

theorem exec_of_branchTaken {disp : Int} (h : BranchTaken s i disp) :
    ∃ w, exec i s = .next (takeBranch s w (branchTarget s disp)) := by
  obtain rfl | ⟨rfl, h14, h15⟩ | ⟨rfl, h14, h15⟩ := h
  · exact ⟨_, exec_jmp disp s⟩
  · exact ⟨_, exec_jie_of_equal disp h14 h15⟩
  · exact ⟨_, exec_jig_of_greater disp h14 h15⟩

/-- An instruction with a cause to fault raises that fault in the state as it was, but for the `Error` that a GETI has
consumed (R200, R214). -/
theorem exec_of_stopsWith_faulted (h : StopsWith s i (.faulted r)) :
    exec i s = .next (raiseFault r s) ∨ ∃ rest, exec i s = .next (raiseFault r (takeAnswer s .error rest)) := by
  cases h with
  | branch htaken hneg =>
    obtain ⟨w, he⟩ := exec_of_branchTaken htaken
    exact .inl (by rw [he, takeBranch_of_neg hneg])
  | reserved hres => exact .inl (exec_of_isReserved s hres)
  | inputError hhead =>
    obtain ⟨rest, hin⟩ := List.head?_eq_some_iff.mp hhead
    exact .inr ⟨rest, by rw [exec_calGeti, exchangeInput_of_cons hin]; rfl⟩
  | addOverflow hp hsum => exact .inl (congrArg _ (storeSum_of_overflow hp hsum))
  | incOverflow hp hsum => exact .inl (congrArg _ (storeSum_of_overflow hp hsum))

/-- An instruction's step ends in a fault exactly when the instruction has that fault's cause. -/
theorem exec_faulted_iff_stopsWith (hs : s.status = .running ∨ i = .calGeti) (h : exec i s = .next t) :
    t.status = .faulted r ↔ StopsWith s i (.faulted r) := by
  constructor
  · intro hfault
    obtain hrun | ⟨-, hstop⟩ := exec_status hs h
    · cases hrun.symm.trans hfault
    · rwa [hfault] at hstop
  · intro hstop
    obtain he | ⟨rest, he⟩ := exec_of_stopsWith_faulted hstop <;> cases h.symm.trans he <;> rfl

/-- An instruction that faults writes no architectural state (R200). -/
theorem exec_keeps_state_of_faulted (hs : s.status = .running ∨ i = .calGeti) (h : exec i s = .next t)
    (hfault : t.status = .faulted r) :
    t.x = s.x ∧ t.d = s.d ∧ t.pc = s.pc ∧ t.out = s.out ∧ t.image = s.image := by
  have hstop := (exec_faulted_iff_stopsWith hs h).mp hfault
  obtain he | ⟨rest, he⟩ := exec_of_stopsWith_faulted hstop <;> cases h.symm.trans he <;> simp

theorem stopsWith_calGeti_faulted_iff :
    StopsWith s .calGeti (.faulted r) ↔ r = .inputParse ∧ s.inbox.head? = some .error := by
  constructor
  · intro h
    cases h with
    | branch htaken => simp [BranchTaken] at htaken
    | reserved hres => cases hres
    | inputError hhead => exact ⟨rfl, hhead⟩
  · rintro ⟨rfl, hhead⟩
    exact .inputError hhead

/-- The byte at `pc` holds a reserved code exactly when the instruction there is of a reserved row (30_encoding.md
R76). -/
theorem isReserved_iff_of_currentInstr (hi : currentInstr s = some i) :
    i.isReserved = true ↔ ∃ b, fetchByte s = some b ∧ 0xED ≤ b.toNat := by
  obtain ⟨b, hf, rfl⟩ := currentInstr_eq_some hi
  simp only [hf, Option.some.injEq, exists_eq_left']
  exact ⟨le_toNat_of_isReserved, isReserved_decodeByteWith_of_le⟩

/-- For a core that has fetched an instruction, the spec's condition of a fault is the instruction's cause (R201). -/
theorem stopsWith_faulted_iff_faultCause (hi : currentInstr s = some i) :
    StopsWith s i (.faulted r) ↔ FaultCause s r := by
  constructor
  · intro h
    cases h with
    | branch htaken hneg => exact ⟨_, i, hneg, hi, htaken⟩
    | reserved hres => exact (isReserved_iff_of_currentInstr hi).mp hres
    | inputError hhead => exact ⟨hi, hhead⟩
    | addOverflow hp hsum => exact ⟨hp, .inl ⟨hi, hsum⟩⟩
    | incOverflow hp hsum => exact ⟨hp, .inr ⟨hi, hsum⟩⟩
  · intro h
    cases r with
    | fetchOutOfRange =>
      obtain ⟨b, hf, -⟩ := currentInstr_eq_some hi
      cases (fetchByte_of_size_le h).symm.trans hf
    | branchTargetNegative =>
      obtain ⟨disp, j, hneg, hj, htaken⟩ := h
      cases hi.symm.trans hj
      exact .branch htaken hneg
    | undefinedSyscall => exact .reserved ((isReserved_iff_of_currentInstr hi).mpr h)
    | inputParse =>
      obtain ⟨hj, hhead⟩ := h
      cases hi.symm.trans hj
      exact .inputError hhead
    | arithOverflow =>
      obtain ⟨hp, ⟨hj, hsum⟩ | ⟨hj, hsum⟩⟩ := h <;> cases hi.symm.trans hj
      · exact .addOverflow hp hsum
      · exact .incOverflow hp hsum

/-- A core that fetches nothing has the fetch's fault as its one cause (R202). -/
theorem faultCause_iff_of_fetch_none (hw : Memory.wf s.params.imemSize s.image = true) (hf : fetchByte s = none) :
    FaultCause s r ↔ r = .fetchOutOfRange := by
  have hcur : currentInstr s = none := by simp [currentInstr, hf]
  cases r with
  | fetchOutOfRange => simpa [FaultCause] using (fetchByte_eq_none_iff _ s hw).mp hf
  | branchTargetNegative | undefinedSyscall | inputParse | arithOverflow => simp [FaultCause, hcur, hf]

end FaultOfInstruction

/-! ### The launch (R213) -/

section Launch
variable {p : Params} {bytes : List Byte}

theorem launch_of_le (h : bytes.length ≤ p.imemSize) (answers : List Answer) :
    launch p bytes answers =
      some { State.reset with image := Memory.ofBytes bytes, params := p, inbox := answers } := if_pos h

theorem launch_of_lt (h : p.imemSize < bytes.length) (answers : List Answer) : launch p bytes answers = none :=
  if_neg (Nat.not_le.mpr h)

@[simp] theorem Memory.size_ofBytes (bytes : List Byte) : Memory.size (Memory.ofBytes bytes) = bytes.length :=
  Memory.length_ofBytesFrom bytes 0

theorem Memory.read_ofBytes (bytes : List Byte) (a : Nat) : Memory.read (Memory.ofBytes bytes) a = bytes[a]? := by
  simpa [Memory.ofBytes] using Memory.read_ofBytesFrom bytes 0 a

/-- The `imem` port of a loaded image gives its bytes, and nothing beyond them (R215, 20_memory.md R51). -/
theorem imemPort_of_ofBytes {s : State} (h : s.image = Memory.ofBytes bytes) (a : Nat) :
    imemPort s a = bytes[a]? := by
  unfold imemPort
  rw [h, Memory.size_ofBytes, Memory.read_ofBytes]
  split
  · rfl
  · next hge => exact (List.getElem?_eq_none (Nat.not_lt.mp hge)).symm

end Launch

end Sys2Proof.Machine

section
open Sys2Proof Sys2Proof.Machine

/-- Settles O38: the fetch's fault and an instruction's set the status alone; a faulted core's step is a stop. -/
theorem faultingStepWritesNothing : Obligations.FaultingStepWritesNothing := by
  unfold Obligations.FaultingStepWritesNothing
  refine ⟨fun s t r h hfault => ?frame, fun s t r hs hr => ?stopped, fun s r _ hr => ⟨_, step_of_reset s hr, rfl⟩⟩
  case frame =>
    obtain rfl | ⟨-, rfl⟩ | ⟨hs, i, -, he⟩ | ⟨-, he⟩ := step_cases_exec h
    · cases hfault
    · exact ⟨rfl, rfl, rfl, rfl, rfl⟩
    · exact exec_keeps_state_of_faulted (.inl hs) he hfault
    · exact exec_keeps_state_of_faulted (.inr rfl) he hfault
  case stopped =>
    rw [step_of_faulted s r hr hs]
    exact nofun

/-- Settles O39: without a fetched byte the one cause is the fetch's; with one, the causes are those of the instruction
fetched, which for a waiting core is GETI. -/
theorem faultsHappenExactlyForTheirCauses : Obligations.FaultsHappenExactlyForTheirCauses := by
  unfold Obligations.FaultsHappenExactlyForTheirCauses
  refine ⟨fun s t r hw hr hs h => ?running, fun s t r hr hs h => ?waiting, rfl, rfl, rfl, rfl, rfl⟩
  case running =>
    cases hf : fetchByte s with
    | none =>
      cases (step_of_fetch_none s hr hs hf).symm.trans h
      rw [faultCause_iff_of_fetch_none hw hf, raiseFault_status, Status.faulted.injEq, eq_comm]
    | some b =>
      have hi : currentInstr s = some (decodeByteWith s.params.syscallMap b) := by simp [currentInstr, hf]
      rw [step_of_fetch_some s b hr hs hf] at h
      exact (exec_faulted_iff_stopsWith (.inl hs) h).trans (stopsWith_faulted_iff_faultCause hi)
  case waiting =>
    rw [step_of_waiting s hr hs, ← exec_calGeti] at h
    exact (exec_faulted_iff_stopsWith (.inr rfl) h).trans stopsWith_calGeti_faulted_iff

/-- Settles O46: the two sides of the length check; what is loaded reads back as the image's bytes. -/
theorem launchLoadsTheImage : Obligations.LaunchLoadsTheImage := by
  unfold Obligations.LaunchLoadsTheImage
  refine ⟨fun p bytes answers hlong => launch_of_lt hlong answers, fun p bytes answers hfits => ?loaded, rfl⟩
  have hlaunch := launch_of_le hfits answers
  exact ⟨_, hlaunch, fun hp hanswers => inv_launch hp hanswers hlaunch, readX_reset, readD_reset, rfl, rfl, rfl, rfl,
    rfl, rfl, rfl, rfl, Memory.size_ofBytes bytes, imemPort_of_ofBytes rfl⟩

/-- Settles O27: the exchange takes the channel's first answer before it acts on it, value or `Error`. -/
theorem getiConsumesOneAnswer : Obligations.GetiConsumesOneAnswer := by
  unfold Obligations.GetiConsumesOneAnswer
  intro s a rest hin
  refine ⟨_, by rw [exec_calGeti, exchangeInput_of_cons hin], ?_⟩
  cases a with
  | value v => exact ⟨rfl, rfl⟩
  | error => exact ⟨rfl, rfl⟩

end

/-! PROOFS: the statements of reset, program loading and hangs (70_reset_and_hazards.md). What a placed byte reads back
as, what a set of taken branches keeps, and a hang as a predicate that every state can step to again. -/

namespace Sys2Proof.Machine

/-! ### Placing a byte (section 1, R232) -/

section Placing
variable {size a : Nat} {img : List Host.Cell}

theorem Memory.read_replace_self (img : List Host.Cell) (a : Nat) (b : Byte) :
    Memory.read (Memory.replace img a b) a = (Memory.read img a).map fun _ => b := by
  induction img with
  | nil => rfl
  | cons c rest ih =>
    by_cases hc : c.1 = a
    · simp [Memory.replace, Memory.read, hc]
    · simpa [Memory.replace, Memory.read, hc] using ih

theorem Memory.read_append_of_none {l : List Host.Cell} (h : Memory.read l a = none) (r : List Host.Cell) :
    Memory.read (l ++ r) a = Memory.read r a := by
  induction l with
  | nil => rfl
  | cons c rest ih =>
    by_cases hc : c.1 = a
    · simp [Memory.read, hc] at h
    · simp only [Memory.read, hc, if_false] at h
      simpa [Memory.read, hc] using ih h

theorem Memory.read_of_size_le (hw : Memory.wf size img = true) (h : Memory.size img ≤ a) :
    Memory.read img a = none := by
  rw [← Option.not_isSome_iff_eq_none, Memory.read_isSome size img a hw, decide_eq_true_iff]
  exact Nat.not_lt.mpr h

/-- A byte placed inside the address space is the byte read there, whether it replaces one or extends the image. -/
theorem Memory.read_place_self (hw : Memory.wf size img = true) (ha : a < size) (b : Byte) :
    Memory.read (Memory.place size img a b) a = some b := by
  unfold Memory.place
  by_cases hlt : a < img.length
  · obtain ⟨old, hold⟩ := exists_read_of_lt_size hw hlt
    rw [if_pos hlt, Memory.read_replace_self, hold]
    rfl
  · have hle : img.length ≤ a := Nat.not_lt.mp hlt
    obtain ⟨k, rfl⟩ := Nat.exists_eq_add_of_le hle
    rw [if_neg hlt, if_pos ha, Memory.read_append_of_none (Memory.read_of_size_le hw hle), Memory.read_ofBytesFrom]
    simp

/-- On a canonical image the fetch is the read at `pc`, outside the image too. -/
theorem fetchByte_eq_read {s : State} (hw : Memory.wf size s.image = true) :
    fetchByte s = Memory.read s.image s.pc := by
  by_cases h : s.pc < Memory.size s.image
  · exact fetchByte_of_lt_size h
  · have hle := Nat.not_lt.mp h
    rw [fetchByte_of_size_le hle, Memory.read_of_size_le hw hle]

theorem fetchByte_placeAtPc {s : State} (hw : Memory.wf s.params.imemSize s.image = true)
    (hpc : s.pc < s.params.imemSize) (b : Byte) : fetchByte (placeAtPc s b) = some b :=
  (fetchByte_eq_read (Memory.wf_place _ _ s.pc b hw)).trans (Memory.read_place_self hw hpc b)

end Placing

/-! ### Reset (section 1, R230) -/

@[simp] theorem readD_applyReset (s : State) (k : Dmr) : readD (applyReset s) k = 0 := by simp [readD]

/-! ### Runs that never end (section 2, R236) -/

/-- From a state of a set in which every state steps to a state of the set, a run of any length ends in the set. -/
theorem exists_runFor_of_step {P : State → Prop} (hstep : ∀ s, P s → ∃ t, step s = .next t ∧ P t) (k : Nat) :
    ∀ s, P s → ∃ t, runFor k s = .next t ∧ P t := by
  induction k with
  | zero => exact fun s hs => ⟨s, rfl, hs⟩
  | succ k ih =>
    intro s hs
    obtain ⟨t, ht, hPt⟩ := hstep s hs
    rw [runFor_succ_of_next k s t ht]
    exact ih t hPt

theorem runFor_of_step_self {s : State} (h : step s = .next s) (k : Nat) : runFor k s = .next s := by
  obtain ⟨t, ht, rfl⟩ := exists_runFor_of_step (P := (· = s)) (by rintro _ rfl; exact ⟨_, h, rfl⟩) k s rfl
  exact ht

theorem setStatus_self {s : State} {st : Status} (h : s.status = st) : setStatus s st = s := by
  subst h
  rfl

/-- A wait that finds no answer is a step to the same state (log 5). -/
theorem step_of_unanswered_wait {s : State} (hr : s.resetIn = false) (hs : s.status = .awaitingInput)
    (hin : s.inbox = []) : step s = .next s := by
  rw [step_of_waiting s hr hs, exchangeInput_of_nil hin, setStatus_self hs]

/-! ### Cycles of taken branches (41_branch.md R130 to R133) -/

theorem branchTaken_congr {s t : State} (h14 : readX t 14 = readX s 14) (h15 : readX t 15 = readX s 15) (i : Instr)
    (disp : Int) : BranchTaken t i disp ↔ BranchTaken s i disp := by
  simp only [BranchTaken, h14, h15]

theorem imemPort_congr {s t : State} (h : t.image = s.image) (a : Nat) : imemPort t a = imemPort s a := by
  simp only [imemPort, h]

/-- A taken branch to an address continues there, having written one general register at most: R13 by JMP, and by the
others none, which is a write to R0. -/
theorem exec_of_branchTaken_to {s : State} {i : Instr} {disp : Int} {target : Nat} (h : BranchTaken s i disp)
    (htarget : (s.pc : Int) + disp = target) :
    ∃ n ∈ ([0, 13] : List Reg), exec i s = .next (setPc (writeX s n (pcWord s)) target) := by
  have hjump : ∀ w : State, takeBranch s w ((s.pc : Int) + disp) = setPc w target := fun w => by
    rw [htarget, takeBranch_of_nonneg (Int.natCast_nonneg target), Int.toNat_natCast]
  obtain rfl | ⟨rfl, h14, h15⟩ | ⟨rfl, h14, h15⟩ := h
  · exact ⟨13, by decide, by rw [exec_jmp, hjump]⟩
  · exact ⟨0, by decide, by rw [exec_jie_of_equal disp h14 h15, hjump, writeX_zero]⟩
  · exact ⟨0, by decide, by rw [exec_jig_of_greater disp h14 h15, hjump, writeX_zero]⟩

/-- The image holds at this address a branch, taken on the flags of `s`, to an address of `cycle`. -/
def BranchesInto (cycle : List Nat) (s : State) (a : Nat) : Prop :=
  ∃ (b : Byte) (disp : Int), imemPort s a = some b ∧
    BranchTaken s (decodeByteWith s.params.syscallMap b) disp ∧ ∃ a' ∈ cycle, (a : Int) + disp = (a' : Int)

/-- A running core on a cycle of taken branches. -/
structure OnBranchCycle (cycle : List Nat) (s : State) : Prop where
  resetIn : s.resetIn = false
  status : s.status = .running
  pc : s.pc ∈ cycle
  branches : ∀ a ∈ cycle, BranchesInto cycle s a

section BranchCycle
variable {cycle : List Nat} {s : State}

theorem branchesInto_congr {t : State} (himage : t.image = s.image) (hparams : t.params = s.params)
    (h14 : readX t 14 = readX s 14) (h15 : readX t 15 = readX s 15) (a : Nat) :
    BranchesInto cycle t a ↔ BranchesInto cycle s a := by
  simp only [BranchesInto, imemPort_congr himage, hparams, branchTaken_congr h14 h15]

/-- Going to an address of the cycle after a write that leaves the flags alone stays on the cycle. -/
theorem onBranchCycle_setPc_writeX (hs : OnBranchCycle cycle s) {n : Reg} (hn : n ∈ ([0, 13] : List Reg)) (v : Nat)
    {target : Nat} (htarget : target ∈ cycle) : OnBranchCycle cycle (setPc (writeX s n v) target) where
  resetIn := (writeX_resetIn s n v).trans hs.resetIn
  status := (writeX_status s n v).trans hs.status
  pc := htarget
  branches a ha := by
    have h14 : (14 : Reg) ≠ n := by rintro rfl; exact absurd hn (by decide)
    have h15 : (15 : Reg) ≠ n := by rintro rfl; exact absurd hn (by decide)
    exact (branchesInto_congr (writeX_image s n v) (writeX_params s n v) (readX_writeX_ne s n 14 v h14)
      (readX_writeX_ne s n 15 v h15) a).mpr (hs.branches a ha)

/-- A step on a cycle of taken branches stays on it and writes neither the DMRs nor the output. -/
theorem step_keeps_onBranchCycle (hs : OnBranchCycle cycle s) :
    ∃ t, step s = .next t ∧ OnBranchCycle cycle t ∧ t.d = s.d ∧ t.out = s.out := by
  obtain ⟨b, disp, hb, htaken, target, hmem, htarget⟩ := hs.branches s.pc hs.pc
  have hfetch : fetchByte s = some b := hb
  obtain ⟨n, hn, he⟩ := exec_of_branchTaken_to htaken htarget
  exact ⟨_, (step_of_fetch_some s b hs.resetIn hs.status hfetch).trans he, onBranchCycle_setPc_writeX hs hn _ hmem,
    writeX_d .., writeX_out ..⟩

theorem exists_runFor_onBranchCycle (hs : OnBranchCycle cycle s) (k : Nat) :
    ∃ t, runFor k s = .next t ∧ OnBranchCycle cycle t ∧ t.d = s.d ∧ t.out = s.out := by
  refine exists_runFor_of_step (P := fun t => OnBranchCycle cycle t ∧ t.d = s.d ∧ t.out = s.out) ?_ k s ⟨hs, rfl, rfl⟩
  rintro t ⟨ht, hd, hout⟩
  obtain ⟨u, hu, hcycle, hud, huout⟩ := step_keeps_onBranchCycle ht
  exact ⟨u, hu, hcycle, hud.trans hd, huout.trans hout⟩

/-- A branch to its own address is a cycle of one address. -/
theorem onBranchCycle_singleton (hr : s.resetIn = false) (hs : s.status = .running) {b : Byte}
    (hf : fetchByte s = some b) (htaken : BranchTaken s (decodeByteWith s.params.syscallMap b) 0) :
    OnBranchCycle [s.pc] s where
  resetIn := hr
  status := hs
  pc := List.mem_singleton_self _
  branches a ha := by
    obtain rfl := List.mem_singleton.mp ha
    exact ⟨b, 0, hf, htaken, s.pc, ha, Int.add_zero _⟩

end BranchCycle

/-- The six bytes of displacement 0 under flags on which their branch is taken (30_encoding.md R74, D29). -/
theorem exists_branchTaken_zero {s : State}
    (h : fetchByte s = some 0x80#8 ∨ fetchByte s = some 0x90#8 ∨
      ((fetchByte s = some 0xA0#8 ∨ fetchByte s = some 0xB0#8) ∧ readX s 14 = 0 ∧ readX s 15 = 0) ∨
      ((fetchByte s = some 0xC0#8 ∨ fetchByte s = some 0xD0#8) ∧ readX s 14 = 1 ∧ readX s 15 = 0)) :
    ∃ b, fetchByte s = some b ∧ BranchTaken s (decodeByteWith s.params.syscallMap b) 0 := by
  obtain hf | hf | ⟨hf | hf, hflags⟩ | ⟨hf | hf, hflags⟩ := h
  · exact ⟨_, hf, .inl (decodeByteWith_jmp rfl)⟩
  · exact ⟨_, hf, .inl (decodeByteWith_jmp rfl)⟩
  · exact ⟨_, hf, .inr (.inl ⟨decodeByteWith_jie rfl, hflags⟩)⟩
  · exact ⟨_, hf, .inr (.inl ⟨decodeByteWith_jie rfl, hflags⟩)⟩
  · exact ⟨_, hf, .inr (.inr ⟨decodeByteWith_jig rfl, hflags⟩)⟩
  · exact ⟨_, hf, .inr (.inr ⟨decodeByteWith_jig rfl, hflags⟩)⟩

end Sys2Proof.Machine

section
open Sys2Proof Sys2Proof.Machine

/-- Settles O8: the placed byte reads back at `pc`, and the step of a running core executes what it fetches. -/
theorem placedWordIsTheOneThatRuns : Obligations.PlacedWordIsTheOneThatRuns := by
  unfold Obligations.PlacedWordIsTheOneThatRuns
  intro s nbits w hw hpc
  have hfetch : fetchByte (s.withFetchWord nbits w) = some (tableByte nbits w) := fetchByte_placeAtPc hw hpc _
  exact ⟨Memory.wf_place _ _ _ _ hw, hfetch, rfl, step_of_fetch_some _ _ rfl rfl hfetch⟩

/-- Settles O42: a branch to itself is a cycle of one address, a cycle of taken branches is kept by every step, and a
wait without an answer steps to itself. -/
theorem hangsRunForEver : Obligations.HangsRunForEver := by
  unfold Obligations.HangsRunForEver
  refine ⟨fun s k hr hs hbyte => ?itself, fun s cycle k hr hs hpc hbranches => ?cycle, fun s k hr hs hin => ?wait⟩
  case itself =>
    obtain ⟨b, hf, htaken⟩ := exists_branchTaken_zero hbyte
    obtain ⟨t, hrun, ht, hd, hout⟩ := exists_runFor_onBranchCycle (onBranchCycle_singleton hr hs hf htaken) k
    exact ⟨t, hrun, List.mem_singleton.mp ht.pc, ht.status, hd, hout⟩
  case cycle =>
    obtain ⟨t, hrun, ht, hd, hout⟩ := exists_runFor_onBranchCycle ⟨hr, hs, hpc, hbranches⟩ k
    exact ⟨t, hrun, ht.pc, ht.status, hd, hout⟩
  case wait => exact runFor_of_step_self (step_of_unanswered_wait hr hs hin) k

/-- Settles O44: with reset asserted the step is the reset, whatever the status. -/
theorem resetRestoresTheResetValues : Obligations.ResetRestoresTheResetValues := by
  unfold Obligations.ResetRestoresTheResetValues
  intro s hr
  exact ⟨_, step_of_reset s hr, readX_applyReset s, readD_applyReset s, rfl, rfl, rfl, rfl, rfl, rfl, rfl, rfl, rfl⟩

end

/-! PROOFS: the statement about the other value of an implementation-defined flag (93_implementation_defined.md
section 1). -/

namespace Sys2Proof.Machine

/-! ### RET without the advance (42_syscalls.md R161) -/

theorem exec_calRet_of_not_retAdvance {s : State} (h : s.params.retAdvance = false) :
    exec .calRet s = .next (setPc s (readX s 13)) := congrArg _ (if_neg (ne_true_of_eq_false h))

end Sys2Proof.Machine

section
open Sys2Proof Sys2Proof.Machine

/-- Settles O25: RET without the advance sets `pc` and does nothing else. -/
theorem retWithoutAdvanceContinuesAtRThirteen : Obligations.RetWithoutAdvanceContinuesAtRThirteen := by
  unfold Obligations.RetWithoutAdvanceContinuesAtRThirteen
  exact fun s => exec_calRet_of_not_retAdvance

end
